-- ==== Sys2Proof/Word.lean ====
section
/-! DEFINITION. The two bit-vector types of the machine (spec/00_scope.md R7, R10): a memory cell or general register
is a byte, an instruction word, the index register and the program counter are 16-bit words. -/

namespace Sys2Proof

/-- Eight bits: a memory cell, a general register, a timer (R7). -/
abbrev Byte := BitVec 8

/-- Sixteen bits: an instruction word, `I`, `PC`, a stack entry, `KEYS` (R7). -/
abbrev Word := BitVec 16

end Sys2Proof
end

