-- ==== Sys2Proof/Syntax.lean ====
section
/-! DEFINITION. The six instructions of spec/opcode_table.json (spec/30_encoding.md R73), one constructor a row.
Every other word is `UNKNOWN` (R74, R77); it is no instruction of the table, so the decoder rejects it by name and the
step gives it the effect of R111. -/

namespace Sys2Proof

/-- An instruction. A register operand is an index of `V` (R21), `nn` a byte (R72), `nnn` the 12-bit field that R72
zero-extends, and `n` the count of sprite rows, 0 to 15 (R72; the bound is checked in WellFormed.lean). -/
inductive Instr where
  /-- `CLS`, word 00E0 (R140). -/
  | cls
  /-- `JP nnn`, word 1NNN (R110). -/
  | jp (nnn : BitVec 12)
  /-- `LD Vx, nn`, word 6XNN (R121). -/
  | ldVxNn (x : Fin 16) (nn : Byte)
  /-- `ADD Vx, nn`, word 7XNN (R122). -/
  | addVxNn (x : Fin 16) (nn : Byte)
  /-- `LD I, nnn`, word ANNN (R123). -/
  | ldINnn (nnn : BitVec 12)
  /-- `DRW Vx, Vy, n`, word DXYN (R146). -/
  | drw (x y : Fin 16) (n : Nat)
  deriving DecidableEq, Repr

end Sys2Proof
end

