-- ==== Sys2Proof/WellFormed.lean ====
section
/-! DEFINITION. Which terms of `Instr` are instructions of the hardware. R76: no value of a field is illegal, so the
only check is that a field's value fits its field. The types of `Instr` bound every field but the row count of `DRW`. -/

namespace Sys2Proof

/-- `N` is an unsigned 4-bit count, 0 to 15 (R72); every other field's type is its range. -/
def Instr.wellFormed : Instr → Bool
  | .cls => true
  | .jp _ => true
  | .ldVxNn _ _ => true
  | .addVxNn _ _ => true
  | .ldINnn _ => true
  | .drw _ _ n => decide (n < 16)

end Sys2Proof
end

