-- ==== Sys2Proof/Decode.lean ====
section
/-! DEFINITION. The instruction word: its byte order, its fields, the decoder, the encoder and the opcode table
(spec/30_encoding.md R70 to R78, spec/20_memory.md R56). -/

namespace Sys2Proof

/-- The 16-bit word of two bytes, the byte at the lower address first: big-endian (R56). -/
def wordOfBytes (hi lo : Byte) : Word := hi ++ lo

/-- The two bytes of a word as memory holds them, lowest address first (R56). -/
def bytesOfWord (w : Word) : List Byte := [w.extractLsb' 8 8, w.extractLsb' 0 8]

/-- `op = w[15:12]` (R71). -/
def opField (w : Word) : BitVec 4 := w.extractLsb' 12 4
/-- `X = w[11:8]` (R71). -/
def xField (w : Word) : Fin 16 := (w.extractLsb' 8 4).toFin
/-- `Y = w[7:4]` (R71). -/
def yField (w : Word) : Fin 16 := (w.extractLsb' 4 4).toFin
/-- `N = w[3:0]` (R71). -/
def nField (w : Word) : Nat := (w.extractLsb' 0 4).toNat
/-- `NN = w[7:0]` (R71). -/
def nnField (w : Word) : Byte := w.extractLsb' 0 8
/-- `NNN = w[11:0]` (R71). -/
def nnnField (w : Word) : BitVec 12 := w.extractLsb' 0 12

/-- Why bytes are not an instruction. -/
inductive DecodeRefusal where
  /-- `UNKNOWN(w)`: the word matches no row of R73 (R74, R77). The step gives it the effect of R111. -/
  | unknown (w : Word)
  /-- Fewer than the two bytes of an instruction (R70). No step meets it: a fetch gives a whole word. -/
  | truncated
  deriving DecidableEq, Repr

/-- The decode function of R74, total on every word. -/
def decodeWord (w : Word) : Except DecodeRefusal Instr :=
  if w = 0x00E0#16 then .ok .cls
  else if opField w = 0x1#4 then .ok (.jp (nnnField w))
  else if opField w = 0x6#4 then .ok (.ldVxNn (xField w) (nnField w))
  else if opField w = 0x7#4 then .ok (.addVxNn (xField w) (nnField w))
  else if opField w = 0xA#4 then .ok (.ldINnn (nnnField w))
  else if opField w = 0xD#4 then .ok (.drw (xField w) (yField w) (nField w))
  else .error (.unknown w)

/-- The decoder on bytes as memory holds them. Every instruction is two bytes (R70); what follows is not read. -/
def decodeBytes : List Byte → Except DecodeRefusal Instr
  | hi :: lo :: _ => decodeWord (wordOfBytes hi lo)
  | _ => .error .truncated

/-- The four bits of a register index, as the fields `X` and `Y` hold them (R71, R72). -/
def regBits (x : Fin 16) : BitVec 4 := BitVec.ofNat 4 x.val

/-- The word of a well-formed instruction: the patterns of R73 with the operands in the fields of R71. -/
def encode : Instr → Word
  | .cls => 0x00E0#16
  | .jp nnn => 0x1#4 ++ nnn
  | .ldVxNn x nn => 0x6#4 ++ (regBits x ++ nn)
  | .addVxNn x nn => 0x7#4 ++ (regBits x ++ nn)
  | .ldINnn nnn => 0xA#4 ++ nnn
  | .drw x y n => 0xD#4 ++ (regBits x ++ (regBits y ++ BitVec.ofNat 4 n))

/-- One row of the opcode table: a word `w` selects it when `w & mask = pattern` (R73). -/
structure OpcodeRow where
  pattern : Word
  mask : Word
  deriving DecidableEq, Repr

/-- Whether a word selects a row (R73). -/
def OpcodeRow.selects (r : OpcodeRow) (w : Word) : Bool := w &&& r.mask == r.pattern

/-- The row of an instruction, its `match` and `mask` columns (R73). -/
def rowOf : Instr → OpcodeRow
  | .cls => ⟨0x00E0, 0xFFFF⟩
  | .jp _ => ⟨0x1000, 0xF000⟩
  | .ldVxNn _ _ => ⟨0x6000, 0xF000⟩
  | .addVxNn _ _ => ⟨0x7000, 0xF000⟩
  | .ldINnn _ => ⟨0xA000, 0xF000⟩
  | .drw _ _ _ => ⟨0xD000, 0xF000⟩

/-- The six rows of R73, in the table's order. -/
def opcodeTable : List OpcodeRow :=
  [⟨0x00E0, 0xFFFF⟩, ⟨0x1000, 0xF000⟩, ⟨0x6000, 0xF000⟩, ⟨0x7000, 0xF000⟩, ⟨0xA000, 0xF000⟩, ⟨0xD000, 0xF000⟩]

/-- The two bytes, as memory holds them, of the instruction whose `nbits` bits are `w` in the numbering of
spec/opcode_table.json (bit 0 the least significant bit of the one word). -/
def tableWordBytes (nbits w : Nat) : List Byte := bytesOfWord (BitVec.ofNat 16 (w % 2 ^ nbits))

/-- The instruction the decoder reads from a word of the opcode table. -/
def decodeTableWord (nbits w : Nat) : Option Instr :=
  match decodeBytes (tableWordBytes nbits w) with
  | .ok i => some i
  | .error _ => none

end Sys2Proof
end

