-- ==== Sys2Proof/Config.lean ====
section
/-! DEFINITION. What is fixed for a machine and is no part of its state: the sizes of spec/00_scope.md R7 and the three
open parameters of R8. The default glyph table of R192 stands in Machine/Font.lean. -/

namespace Sys2Proof

/-- `MEM_SIZE` (R7): the addresses are 0x000 to 0xFFF. -/
abbrev memSize : Nat := 4096
/-- The highest valid address (R50, R54). -/
abbrev maxAddr : Nat := 0xFFF
/-- `FONT_BASE` (R7, decision D4). -/
abbrev fontBase : Nat := 0x050
/-- `FONT_SIZE` (R7): 16 glyphs of 5 bytes. -/
abbrev fontSize : Nat := 80
/-- `PROGRAM_BASE` (R7). -/
abbrev programBase : Nat := 0x200
/-- `MAX_PROGRAM` (R7): 4096 - 0x200. -/
abbrev maxProgram : Nat := 3584
/-- `DISP_W` (R7). -/
abbrev dispW : Nat := 64
/-- `DISP_H` (R7). -/
abbrev dispH : Nat := 32
/-- `NUM_V` (R7). -/
abbrev numV : Nat := 16

/-- The open parameters of R8. No definition of the model fixes one: each operation that depends on one takes it as
an argument. -/
structure Config where
  /-- `FONT`: the 80 bytes that `construct` places at 0x050 (R191, R192). -/
  font : Vector Byte fontSize
  /-- `STACK_DEPTH` (R29, R30, decision D13). -/
  stackDepth : Nat
  /-- `CYCLES_PER_FRAME`: how many steps the driver runs in one frame (R176, decision D16). -/
  cyclesPerFrame : Nat
  deriving DecidableEq, Repr

end Sys2Proof
end

