-- ==== Sys2Proof/Machine/Font.lean ====
section
/-! DEFINITION. The default `FONT` (spec/70_reset_and_hazards.md R192; the spec marks it general knowledge, decision
D3) and the configuration with the spec's defaults (R8). -/

namespace Sys2Proof.Machine

/-- Glyphs 0 to 3 of R192's table. -/
def glyphs0to3 : List Byte :=
  [0xF0, 0x90, 0x90, 0x90, 0xF0] ++ [0x20, 0x60, 0x20, 0x20, 0x70] ++
  [0xF0, 0x10, 0xF0, 0x80, 0xF0] ++ [0xF0, 0x10, 0xF0, 0x10, 0xF0]

/-- Glyphs 4 to 7 of R192's table. -/
def glyphs4to7 : List Byte :=
  [0x90, 0x90, 0xF0, 0x10, 0x10] ++ [0xF0, 0x80, 0xF0, 0x10, 0xF0] ++
  [0xF0, 0x80, 0xF0, 0x90, 0xF0] ++ [0xF0, 0x10, 0x20, 0x40, 0x40]

/-- Glyphs 8 to B of R192's table. -/
def glyphs8toB : List Byte :=
  [0xF0, 0x90, 0xF0, 0x90, 0xF0] ++ [0xF0, 0x90, 0xF0, 0x10, 0xF0] ++
  [0xF0, 0x90, 0xF0, 0x90, 0x90] ++ [0xE0, 0x90, 0xE0, 0x90, 0xE0]

/-- Glyphs C to F of R192's table. -/
def glyphsCtoF : List Byte :=
  [0xF0, 0x80, 0x80, 0x80, 0xF0] ++ [0xE0, 0x90, 0x90, 0x90, 0xE0] ++
  [0xF0, 0x80, 0xF0, 0x80, 0xF0] ++ [0xF0, 0x80, 0xF0, 0x80, 0x80]

/-- The 80 bytes of the default font: glyph `d` at offset `5 * d` (R192). -/
def defaultFont : Vector Byte fontSize :=
  ⟨(glyphs0to3 ++ glyphs4to7 ++ glyphs8toB ++ glyphsCtoF).toArray, rfl⟩

/-- The defaults of R8: the default font, a stack of 16 entries, and a frame budget that the caller names, since the
source gives none. -/
def standardConfig (cyclesPerFrame : Nat) : Config :=
  { font := defaultFont, stackDepth := 16, cyclesPerFrame := cyclesPerFrame }

end Sys2Proof.Machine
end

