-- ==== Sys2Proof/Machine/State.lean ====
section
/-! DEFINITION. The machine's state, its error kinds and its state after reset (spec/10_state.md R20 to R36,
spec/60_exceptions.md R160, spec/70_reset_and_hazards.md R191). The operations over it stand in Machine/Ops.lean. -/

namespace Sys2Proof.Machine

/-- `Mem` (R32, R50), as the cells that differ from what an unlisted address reads as (`unlistedByte` in
Machine/Ops.lean): addresses strictly rising. `Memory.wf` in Machine/Ops.lean is that form. -/
abbrev Memory := List Host.Cell

/-- `Disp` (R33): `disp[x][y]` is the cell of column `x` (0 to 63, rightward) and row `y` (0 to 31, downward). -/
abbrev Display := Vector (Vector Bool dispH) dispW

/-- The error kinds that a step can return to the driver (R160). They record no payload (R160, decision D14). The core
never stops on one: R103 lets the driver step again, R162 says what state each leaves. So `step` answers a next state
for every state and never ends in one of these; the kind stands in the outcome of `Machine.stepResult`, beside that
next state. -/
inductive Fault where
  /-- A computed memory address above 0xFFF. Raised by `memRead` and `memWrite` (R54, R55), hence by the fetch (R101),
  and by the range check of `DRW` (R145). Safe: decision D5 says that hardware that wraps runs on where this errs. -/
  | outOfBounds
  /-- The word matches no row of the opcode table. Raised by the execute phase of an unknown word (R111). Exact. -/
  | unknownInstruction
  /-- A push on a full stack. Raised by `stackPush` (R30), which no step calls (R31). Safe: unreachable. -/
  | stackOverflow
  /-- A pop on an empty stack. Raised by `stackPop` (R31), which no step calls. Safe: unreachable. -/
  | stackUnderflow
  deriving DecidableEq, Repr

/-- Why the model gives an instruction no meaning. -/
inductive Refusal where
  /-- The instruction has no meaning in this model yet. No arm raises it: all six instructions have their meaning. Safe. -/
  | notModelled (mnemonic : String)
  deriving DecidableEq, Repr

/-- The record of R20, and nothing else: "Nothing else is state". -/
structure State where
  /-- `Mem`, 4096 bytes (R32, R50). -/
  mem : Memory
  /-- `V`, the general registers V0 to VF (R21); VF is also the flag (R22, R27). -/
  v : Vector Byte numV
  /-- `I`, the index register (R23). -/
  i : Word
  /-- `PC`, the program counter (R24). -/
  pc : Word
  /-- `DT`, the delay timer (R25). -/
  dt : Byte
  /-- `ST`, the sound timer (R26). -/
  st : Byte
  /-- `Stack`, return addresses, the top last (R29). -/
  stack : List Word
  /-- `Disp`, the display buffer (R33). -/
  disp : Display
  /-- `KEYS`, the key-state latch, bit `k` for key `k` (R34). -/
  keys : Word
  deriving DecidableEq, Repr

/-- Every cell off (R33). -/
def Display.blank : Display := Vector.replicate dispW (Vector.replicate dispH false)

/-- The machine right after reset: the reset column of R20, which is the state that `construct` leaves for an empty
program and the default font (R191). No memory cell is listed: an unlisted address reads as its reset content. -/
def State.reset : State where
  mem := []
  v := Vector.replicate numV 0
  i := 0
  pc := 0x200
  dt := 0
  st := 0
  stack := []
  disp := Display.blank
  keys := 0

end Sys2Proof.Machine
end

