-- ==== Sys2Proof/Machine/Ops.lean ====
section
/-! DEFINITION. The shared operations: the memory primitives, the accessors of every register, the display cells, the
call stack, the fetch, and how a step ends. -/

namespace Sys2Proof.Machine

/-! ### Memory as data -/

/-- What an address that the memory does not list reads as: the reset content of R191 with the default font of R192.
A machine constructed with another font lists the bytes where the two differ. Outside the font it is 0 (decision D2:
the spec's own choice). -/
def unlistedByte (a : Nat) : Byte :=
  if h : fontBase ≤ a ∧ a < fontBase + fontSize then defaultFont[a - fontBase]'(by have := h.1; have := h.2; omega)
  else 0

/-- The canonical form from address `lo` upward: addresses strictly rising and below 4096, and no cell that holds what
its address reads as when unlisted. -/
def Memory.wfFrom (lo : Nat) : Memory → Bool
  | [] => true
  | (a, b) :: m => decide (lo ≤ a) && decide (a < memSize) && (b != unlistedByte a) && Memory.wfFrom (a + 1) m

/-- The canonical form of a memory: equal memories are equal lists. -/
def Memory.wf (m : Memory) : Bool := Memory.wfFrom 0 m

/-- The byte at an address. -/
def Memory.read : Memory → Nat → Byte
  | [], a => unlistedByte a
  | (c, d) :: m, a => if a = c then d else Memory.read m a

/-- A cell put in front of `m`, unless it holds what its address reads as when unlisted. -/
def Memory.consCell (a : Nat) (b : Byte) (m : Memory) : Memory := if b = unlistedByte a then m else (a, b) :: m

/-- The memory with the byte at an address replaced, in canonical form. -/
def Memory.write : Memory → Nat → Byte → Memory
  | [], a, b => Memory.consCell a b []
  | (c, d) :: m, a, b =>
    if a < c then Memory.consCell a b ((c, d) :: m)
    else if a = c then Memory.consCell a b m
    else (c, d) :: Memory.write m a b

/-- Bytes written at consecutive addresses from `base` upward (the two loading loops of R191). -/
def Memory.load (m : Memory) (base : Nat) : List Byte → Memory
  | [] => m
  | b :: bs => Memory.load (Memory.write m base b) (base + 1) bs

/-! ### The one accessor of each field -/

/-- The byte at an address, without the bounds check of R54. -/
def State.byte (s : State) (a : Nat) : Byte := s.mem.read a
/-- `V[x]` (R11, R21). No register is hardwired or an alias of another. -/
def State.readV (s : State) (x : Fin 16) : Byte := s.v[x]
/-- `V[x] <- b` (R11, R21). -/
def State.setV (s : State) (x : Fin 16) (b : Byte) : State := { s with v := s.v.set x b }
/-- `I <- w` (R23). -/
def State.setI (s : State) (w : Word) : State := { s with i := w }
/-- `PC <- w` (R24). -/
def State.setPc (s : State) (w : Word) : State := { s with pc := w }
/-- `DT` and `ST` written together, as the tick does (R170). -/
def State.setTimers (s : State) (dt st : Byte) : State := { s with dt := dt, st := st }
/-- `Stack` written (R30, R31). -/
def State.setStack (s : State) (st : List Word) : State := { s with stack := st }
/-- `Disp` written (R33). -/
def State.setDisp (s : State) (d : Display) : State := { s with disp := d }
/-- `KEYS` written (R46). -/
def State.setKeyLatch (s : State) (mask : Word) : State := { s with keys := mask }
/-- `Mem` written. -/
def State.setMem (s : State) (m : Memory) : State := { s with mem := m }

/-! ### Display cells -/

/-- Cell `(x, y)` of a display, off the grid `false` (no drawn cell is off the grid, R149). -/
def Display.cell (d : Display) (x y : Nat) : Bool :=
  if h : x < dispW ∧ y < dispH then (d[x]'h.1)[y]'h.2 else false

/-- The display with cell `(x, y)` replaced, unchanged when `(x, y)` is off the grid (no drawn cell is, R149). -/
def Display.setCell (d : Display) (x y : Nat) (b : Bool) : Display :=
  if h : x < dispW ∧ y < dispH then d.set x ((d[x]'h.1).set y b h.2) h.1 else d

/-- `Disp[x][y]` (R11, R33). -/
def State.cell (s : State) (x y : Nat) : Bool := s.disp.cell x y

/-! ### Memory primitives -/

/-- `MemRead(addr, 1)` (R54): the address is a natural number, not reduced before the check. -/
def memRead (a : Nat) (s : State) : Except Fault Byte :=
  if a > maxAddr then .error .outOfBounds else .ok (s.byte a)

/-- `MemWrite(addr, 1, v)` (R55). No instruction uses it (R50). -/
def memWrite (a : Nat) (b : Byte) (s : State) : Except Fault State :=
  if a > maxAddr then .error .outOfBounds else .ok (s.setMem (s.mem.write a b))

/-! ### Call stack primitives. No step calls them (R31). -/

/-- `StackPush(a)` (R30), for a machine whose `STACK_DEPTH` is `depth`. -/
def stackPush (depth : Nat) (a : Word) (s : State) : Except Fault State :=
  if s.stack.length = depth then .error .stackOverflow else .ok (s.setStack (s.stack ++ [a]))

/-- `StackPop()` (R31): the popped address and the state after it. -/
def stackPop (s : State) : Except Fault (Word × State) :=
  match s.stack.getLast? with
  | none => .error .stackUnderflow
  | some a => .ok (a, s.setStack s.stack.dropLast)

/-! ### Fetch -/

/-- The state with `PC` past the fetched instruction (R101). Where a fetch succeeds `PC` is at most 0xFFE, so the sum
does not wrap. -/
def State.advancePc (s : State) : State := s.setPc (s.pc + 2)

/-- `fetch()` (R101): the word at `PC`, big-endian, and the state with `PC` advanced, or `OutOfBounds`. -/
def fetch (s : State) : Except Fault (Word × State) := do
  let hi ← memRead s.pc.toNat s
  let lo ← memRead (s.pc.toNat + 1) s
  return (wordOfBytes hi lo, s.advancePc)

/-! ### How a step ends. The hardware has no trap mechanism and no return from one (R164, R165): an error changes
neither mode nor vector, and the driver simply steps again. -/

/-- The outcome that a step returns to the driver (R160): `Ok` or an error kind. It is no part of the state (R35). -/
inductive StepOutcome where
  | ok
  | error (e : Fault)
  deriving DecidableEq, Repr

/-- What a step returns (R42): the state after it and the outcome. -/
structure Result where
  state : State
  outcome : StepOutcome
  deriving DecidableEq, Repr

/-- A step that completed (R103). -/
def complete (s : State) : Result := ⟨s, .ok⟩

/-- `raise E` in the execute phase (R102), `s` being the state after the fetch: of the step's effects only the fetch
advance of `PC` stays. -/
def raiseInExecute (e : Fault) (s : State) : Result := ⟨s, .error e⟩

/-- `raise E` in the fetch (R101), `s` being the state before the step: no state changes, not even `PC`. -/
def raiseInFetch (e : Fault) (s : State) : Result := ⟨s, .error e⟩

/-- A result as the host's interface takes it. A step always leaves a machine that can be stepped again (R103, R162),
so it is a next state; the outcome of R160 stays in the `Result`. -/
def Result.answer (r : Result) : Host.Outcome State Fault Refusal := .next r.state

end Sys2Proof.Machine
end

