-- ==== Sys2Proof/Machine/Operands.lean ====
section
/-! DEFINITION. The operand forms: register and immediate operands are read by the accessors of Ops.lean and by the
zero extension below; the rest are the derived operands of `DRW` (spec/42_display_ops.md R143 to R145). -/

namespace Sys2Proof.Machine

/-- `zext_16(NNN)` (R72, R110, R123). -/
def zext16 (nnn : BitVec 12) : Word := nnn.zeroExtend 16

/-- `x0 = V[X] mod 64` (R143). -/
def originX (vx : Byte) : Nat := vx.toNat % 64

/-- `y0 = V[Y] mod 32` (R143). -/
def originY (vy : Byte) : Nat := vy.toNat % 32

/-- `rows = min(N, 32 - y0)`: a row below the grid is not drawn and its byte is not read (R144). -/
def rowsDrawn (n y0 : Nat) : Nat := min n (32 - y0)

/-- `cols = min(8, 64 - x0)`: a column right of the grid is not drawn (R144). -/
def colsDrawn (x0 : Nat) : Nat := min 8 (64 - x0)

/-- Whether every row to be drawn has its byte at a valid address (R145, the check loop of R146). -/
def spriteInRange (base rows : Nat) : Bool := (List.range rows).all fun r => decide (base + r ≤ maxAddr)

/-- Bit `7 - c` of a sprite byte: column `c` of its row, the most significant bit leftmost (R144). -/
def spriteBit (b : Byte) (c : Nat) : Bool := b.getLsbD (7 - c)

end Sys2Proof.Machine
end

