-- ==== Sys2Proof/Machine/Control.lean ====
section
/-! DEFINITION. Control flow: the jump and the unknown instruction (spec/40_control_flow.md R110, R111). In this file
and in RegisterOps.lean and Display.lean the state given to an instruction is the state after the fetch, its `PC`
already past the instruction (R100). Each instruction has its effect, with the outcome it returns, and its meaning,
which is that effect as the host's interface takes it. -/

namespace Sys2Proof.Machine

/-- `JP nnn` (R110): overwrites the fetch advance. -/
def jpEffect (nnn : BitVec 12) (s : State) : Result := complete (s.setPc (zext16 nnn))

/-- The meaning of `JP nnn` (R110). -/
def execJp (nnn : BitVec 12) (s : State) : Host.Outcome State Fault Refusal := (jpEffect nnn s).answer

/-- `UNKNOWN(w)` (R111): the word is not interpreted; only the fetch advance of `PC` stays. It is no row of the opcode
table, so it has no arm in `exec`; the step calls it for a word that the decoder rejects. -/
def unknownEffect (_w : Word) (s : State) : Result := raiseInExecute .unknownInstruction s

/-- The meaning of an unknown word (R111). -/
def execUnknown (w : Word) (s : State) : Host.Outcome State Fault Refusal := (unknownEffect w s).answer

end Sys2Proof.Machine
end

