-- ==== Sys2Proof/Machine/Flags.lean ====
section
/-! DEFINITION. The one flag, VF (spec/10_state.md R22, R27), and the one arithmetic operation (spec/41_register_ops.md
R120). No instruction reports carry or borrow: 7XNN touches no flag (R122). -/

namespace Sys2Proof.Machine

/-- VF, the register that `DRW` writes as the collision flag (R22). -/
abbrev flagReg : Fin 16 := 15

/-- The flag as `DRW` clears it before the draw (R146). -/
def noCollision : Byte := 0

/-- The flag after one toggle (R142, R146): 1 when the cell was on, else as it was; never back to 0 in one draw. -/
def flagAfterToggle (was : Bool) (vf : Byte) : Byte := if was then 1 else vf

/-- 8-bit unsigned addition modulo 256; overflow is neither trapped nor flagged (R120). -/
def add8 (a b : Byte) : Byte := a + b

end Sys2Proof.Machine
end

