-- ==== Sys2Proof/Machine/DisplayOps.lean ====
section
/-! DEFINITION. The display instructions and the sprite-draw engine (spec/42_display_ops.md R140 to R149). -/

namespace Sys2Proof.Machine

/-- `DispClear()` (R141). -/
def dispClear (s : State) : State := s.setDisp Display.blank

/-- `CLS` (R140): VF is not cleared and no memory is read. -/
def clsEffect (s : State) : Result := complete (dispClear s)

/-- The meaning of `CLS` (R140). -/
def execCls (s : State) : Host.Outcome State Fault Refusal := (clsEffect s).answer

/-- What a draw in progress has written: the display and the value of VF (the only two things its commit phase writes,
R146). -/
structure Canvas where
  disp : Display
  vf : Byte
  deriving DecidableEq, Repr

/-- `Toggle(x, y)` (R142): the cell's value before, and the display with the cell flipped. -/
def toggle (x y : Nat) (d : Display) : Bool × Display := (d.cell x y, d.setCell x y (!d.cell x y))

/-- The innermost body of R146: column `c` of the sprite row `b`, on display row `y`. -/
def drawPixel (b : Byte) (x0 y : Nat) (k : Canvas) (c : Nat) : Canvas :=
  if spriteBit b c then
    let (was, d) := toggle (x0 + c) y k.disp
    { disp := d, vf := flagAfterToggle was k.vf }
  else k

/-- The column loop of R146, for `c` in `0 .. cols-1`. -/
def drawRow (b : Byte) (x0 y cols : Nat) (k : Canvas) : Canvas := (List.range cols).foldl (drawPixel b x0 y) k

/-- The row loop of R146, for `r` in `0 .. rows-1`, `sprite r` being the byte of row `r`. -/
def drawRows (sprite : Nat → Byte) (x0 y0 rows cols : Nat) (k : Canvas) : Canvas :=
  (List.range rows).foldl (fun k r => drawRow (sprite r) x0 (y0 + r) cols k) k

/-- The sprite bytes that a draw reads, row by row (R145). They are read after the check, where `MemRead` gives the
byte of the address. -/
def spriteRow (s : State) (r : Nat) : Byte := s.byte (s.i.toNat + r)

/-- `DRW Vx, Vy, n` (R146): the coordinates are read before VF is cleared (R143), every row is checked before anything
is written (R145), and a row or column off the grid is neither read nor drawn (R144). -/
def drwEffect (x y : Fin 16) (n : Nat) (s : State) : Result :=
  let x0 := originX (s.readV x)
  let y0 := originY (s.readV y)
  let rows := rowsDrawn n y0
  let cols := colsDrawn x0
  if spriteInRange s.i.toNat rows then
    let k := drawRows (spriteRow s) x0 y0 rows cols { disp := s.disp, vf := noCollision }
    complete ((s.setDisp k.disp).setV flagReg k.vf)
  else raiseInExecute .outOfBounds s

/-- The meaning of `DRW Vx, Vy, n` (R146). -/
def execDrw (x y : Fin 16) (n : Nat) (s : State) : Host.Outcome State Fault Refusal := (drwEffect x y n s).answer

end Sys2Proof.Machine
end

