-- ==== Sys2Proof/Machine/RegisterOps.lean ====
section
/-! DEFINITION. Register and ALU instructions (spec/41_register_ops.md R120 to R123). -/

namespace Sys2Proof.Machine

/-- `LD Vx, nn` (R121). With `X = 0xF` it is an ordinary register write. -/
def ldVxNnEffect (x : Fin 16) (nn : Byte) (s : State) : Result := complete (s.setV x nn)

/-- The meaning of `LD Vx, nn` (R121). -/
def execLdVxNn (x : Fin 16) (nn : Byte) (s : State) : Host.Outcome State Fault Refusal := (ldVxNnEffect x nn s).answer

/-- `ADD Vx, nn` (R122): no carry is reported; with `X = 0xF`, VF receives the sum itself. -/
def addVxNnEffect (x : Fin 16) (nn : Byte) (s : State) : Result := complete (s.setV x (add8 (s.readV x) nn))

/-- The meaning of `ADD Vx, nn` (R122). -/
def execAddVxNn (x : Fin 16) (nn : Byte) (s : State) : Host.Outcome State Fault Refusal := (addVxNnEffect x nn s).answer

/-- `LD I, nnn` (R123): no memory access is made. -/
def ldINnnEffect (nnn : BitVec 12) (s : State) : Result := complete (s.setI (zext16 nnn))

/-- The meaning of `LD I, nnn` (R123). -/
def execLdINnn (nnn : BitVec 12) (s : State) : Host.Outcome State Fault Refusal := (ldINnnEffect nnn s).answer

end Sys2Proof.Machine
end

