-- ==== Sys2Proof/Machine/Step.lean ====
section
/-! DEFINITION. One step of the machine (spec/40_control_flow.md R100), and the placing of an instruction where the
next step fetches it. -/

namespace Sys2Proof.Machine

/-- `step(m)` (R42, R100), as far as the state goes: fetch, decode, execute. `stepResult` in Machine/Interface.lean is
the same step with the outcome that it returns to the driver. -/
def step (s : State) : Host.Outcome State Fault Refusal :=
  match fetch s with
  | .error e => (raiseInFetch e s).answer
  | .ok (w, s1) =>
    match decodeWord w with
    | .ok i => exec i s1
    | .error _ => execUnknown w s1

/-- Where the next fetch can read a whole word: `PC`, or the entry point 0x200 when `PC` is past 0xFFE and no fetch
succeeds (R101). -/
def State.fetchAddr (s : State) : Word := if s.pc.toNat < maxAddr then s.pc else 0x200

/-- The state with the instruction whose bits are `w` stored where the next step fetches (it stands for the load that
`construct` does, R191). `PC` moves only where no fetch could succeed. -/
def State.withFetchWord (s : State) (nbits w : Nat) : State :=
  (s.setMem (s.mem.load s.fetchAddr.toNat (tableWordBytes nbits w))).setPc s.fetchAddr

end Sys2Proof.Machine
end

