-- ==== Sys2Proof/Machine/Interface.lean ====
section
/-! DEFINITION. The six operations of the block's interface (spec/10_state.md R40 to R46): `construct`, `step` with
its outcome, `tick`, `snapshot`, `sound` and `set_keys`. Each is one indivisible transition of the state or a pure read
of it (R59). -/

namespace Sys2Proof.Machine

/-! ### construct -/

/-- The one error of `construct` (R160, R161): no machine exists after it. -/
inductive ConstructError where
  /-- `ProgramTooLarge`: an image longer than 3584 bytes (R190). -/
  | programTooLarge
  deriving DecidableEq, Repr

/-- The memory that `construct` leaves (R191): the font at 0x050, the program at 0x200, 0 elsewhere (decision D2). The
font load overwrites the whole default font of `unlistedByte`. -/
def initialMemory (font : Vector Byte fontSize) (program : List Byte) : Memory :=
  (Memory.load [] fontBase font.toList).load programBase program

/-- `construct(program)` (R41, R190, R191), for a machine with the given `FONT`. The core checks the length of the
image and nothing else. -/
def construct (cfg : Config) (program : List Byte) : Except ConstructError State :=
  if program.length > maxProgram then .error .programTooLarge
  else .ok (State.reset.setMem (initialMemory cfg.font program))

/-! ### step -/

/-- The execute phase of a decoded instruction (R100): the effect of each, with its outcome. -/
def effect (i : Instr) (s : State) : Result :=
  match i with
  | .cls => clsEffect s
  | .jp nnn => jpEffect nnn s
  | .ldVxNn x nn => ldVxNnEffect x nn s
  | .addVxNn x nn => addVxNnEffect x nn s
  | .ldINnn nnn => ldINnnEffect nnn s
  | .drw x y n => drwEffect x y n s

/-- `step(m) -> (m', outcome)` (R42, R100). Its state is the one that `Machine.step` answers
(`step_eq_answer_stepResult` in Laws/Step.lean). -/
def stepResult (s : State) : Result :=
  match fetch s with
  | .error e => raiseInFetch e s
  | .ok (w, s1) =>
    match decodeWord w with
    | .ok i => effect i s1
    | .error _ => unknownEffect w s1

/-! ### tick, set_keys, sound, snapshot -/

/-- One timer decremented by 1, floored at 0 (R170). -/
def countDown (t : Byte) : Byte := if t = 0 then 0 else t - 1

/-- `tick(m)` (R43, R170): both timers, and nothing else. The driver supplies the 60 Hz rate (R171). -/
def tick (s : State) : State := s.setTimers (countDown s.dt) (countDown s.st)

/-- `set_keys(m, mask)` (R46). -/
def setKeys (mask : Word) (s : State) : State := s.setKeyLatch mask

/-- `sound(m)` (R45). -/
def sound (s : State) : Byte := s.st

/-- Whether the driver emits a tone: nonzero means it does (R45). -/
def toneOn (s : State) : Bool := sound s != 0

/-- `snapshot(m)` (R44): the cells in column-major order, each column from top to bottom. -/
def snapshot (s : State) : List Bool := s.disp.toList.flatMap Vector.toList

end Sys2Proof.Machine
end

