-- ==== Sys2Proof/Machine/Driver.lean ====
section
/-! DEFINITION. What the driver can do to a machine (spec/60_exceptions.md R176): after `construct`, any sequence of
the other five operations, one at a time, in an order it chooses. -/

namespace Sys2Proof.Machine

/-- The operations on an existing machine (R40, R176). -/
inductive DriverOp where
  | step
  | tick
  | setKeys (mask : Word)
  | snapshot
  | sound
  deriving DecidableEq, Repr

/-- What the core returns to the driver (the third column of R176). -/
inductive Reply where
  | nothing
  | outcome (o : StepOutcome)
  | pixels (cells : List Bool)
  | level (st : Byte)
  deriving DecidableEq, Repr

/-- One operation: the reply and the state after it (R176). -/
def perform (op : DriverOp) (s : State) : Reply × State :=
  match op with
  | .step => (.outcome (stepResult s).outcome, (stepResult s).state)
  | .tick => (.nothing, tick s)
  | .setKeys mask => (.nothing, setKeys mask s)
  | .snapshot => (.pixels (snapshot s), s)
  | .sound => (.level (sound s), s)

/-- A sequence of operations, in order (R60): the replies and the state after the last. -/
def runOps : List DriverOp → State → List Reply × State
  | [], s => ([], s)
  | op :: ops, s =>
    let (reply, s1) := perform op s
    let (replies, s2) := runOps ops s1
    (reply :: replies, s2)

/-- An infinite schedule (R176), `schedule k` being operation `k`: the state after its first `n` operations. -/
def stateAfter (schedule : Nat → DriverOp) (s : State) : Nat → State
  | 0 => s
  | n + 1 => (perform (schedule n) (stateAfter schedule s n)).2

/-- The reference schedule of one frame (R176): the step budget, `set_keys`, one `tick`, then `snapshot` and `sound`.
Where `set_keys` stands in it is the spec's own choice (decision D16). -/
def frameOps (cfg : Config) (mask : Word) : List DriverOp :=
  List.replicate cfg.cyclesPerFrame .step ++ [.setKeys mask, .tick, .snapshot, .sound]

end Sys2Proof.Machine
end

