-- ==== Sys2Proof/Safety.lean ====
section
/-! DEFINITION. The terms that statements about the machine use: the word at `PC`, the cells that a draw covers, what
an instruction never writes, a run without an error outcome, the invariant and reachability. -/

namespace Sys2Proof.Machine

/-- A fetch at `PC` succeeds and finds `w`: both bytes lie in memory and spell it, high byte first (R56, R101). -/
abbrev WordAtPc (s : State) (w : Word) : Prop :=
  s.pc.toNat + 1 ≤ 0xFFF ∧ s.byte s.pc.toNat = w.extractLsb' 8 8 ∧ s.byte (s.pc.toNat + 1) = w.extractLsb' 0 8

/-- `(px, py)` is a cell that `DRW Vx, Vy, n` draws in state `s`: some row `r` and column `c` of the sprite, neither
clipped, land on it, and bit `7 - c` of that row's byte is 1 (R143, R144, R145, R147). -/
def Drawn (s : State) (x y : Fin 16) (n px py : Nat) : Prop :=
  ∃ r c, r < min n (32 - (s.readV y).toNat % 32) ∧ c < min 8 (64 - (s.readV x).toNat % 64) ∧
    px = (s.readV x).toNat % 64 + c ∧ py = (s.readV y).toNat % 32 + r ∧
    (s.byte (s.i.toNat + r)).getLsbD (7 - c) = true

/-- Every row that `DRW Vx, Vy, n` draws in state `s` has its byte at a valid address (R145). -/
abbrev SpriteReadable (s : State) (y : Fin 16) (n : Nat) : Prop :=
  ∀ r, r < min n (32 - (s.readV y).toNat % 32) → s.i.toNat + r ≤ 0xFFF

/-- The parts of the machine that no instruction writes read the same in both states: every byte of memory (R50), the
timers (R25, R26), the stack (R31) and the key latch (R34). -/
structure UnwrittenKept (s t : State) : Prop where
  bytes : ∀ a, t.byte a = s.byte a
  dt : t.dt = s.dt
  st : t.st = s.st
  stack : t.stack = s.stack
  keys : t.keys = s.keys

/-- The next step returns `Ok`: the "no error outcome" premise of spec/93_implementation_defined.md M7 and M8. -/
def StepOk (s : State) : Prop := (stepResult s).outcome = .ok

/-- The next `k` steps all return `Ok`. -/
def RunOk : Nat → State → Prop
  | 0, _ => True
  | k + 1, s => StepOk s ∧ RunOk k (stepResult s).state

/-- What every operation keeps on a machine whose `STACK_DEPTH` is `depth`. -/
structure Inv (depth : Nat) (s : State) : Prop where
  /-- The memory is in its canonical form. -/
  memory : s.mem.wf = true
  /-- `PC` is at most 0x1000 (R24). -/
  pc : s.pc.toNat ≤ 0x1000
  /-- `I[15:12] = 0` (R23). -/
  index : s.i.toNat ≤ 0xFFF
  /-- The stack's length is at most `STACK_DEPTH` (R29). -/
  stack : s.stack.length ≤ depth

/-- A state that some driver reaches: a machine constructed from some program, then any finite sequence of operations
(R176). -/
def Reachable (cfg : Config) (s : State) : Prop :=
  ∃ program m ops, construct cfg program = .ok m ∧ (runOps ops m).2 = s

end Sys2Proof.Machine
end

