-- ==== Sys2Proof/Certificates/Slice0/Obligations.lean ====
section
/-! DEFINITION. The statements for the provers, from the numbered rules of spec/. -/

open Sys2Proof Sys2Proof.Machine

/-! ### Encoding (spec/30_encoding.md) -/

/-- R73, R74: decoding the encoded word of a well-formed instruction gives that instruction, for every instruction and
every operand that the encoding admits. -/
def Obligations.DecodeOfEncodeIsInstruction : Prop :=
  ∀ i : Instr, i.wellFormed = true → decodeWord (encode i) = .ok i

/-- R73, R76 (with decision D8, the spec's own choice of the full mask of 00E0, notes/assumptions/8.md): a word that
decodes has one meaning: the instruction is well-formed and its encoding is that word. -/
def Obligations.EncodeOfDecodeIsWord : Prop :=
  ∀ (w : Word) (i : Instr), decodeWord w = .ok i → i.wellFormed = true ∧ encode i = w

/-- R74, with the slices of R71 written as arithmetic on the word's value: the family is `w / 4096`, `X` is `w / 256
mod 16`, `Y` is `w / 16 mod 16`, `N` is `w mod 16`, `NN` is `w mod 256` and `NNN` is `w mod 4096`. That only the exact
word 00E0 decodes to `CLS`, every other word 0x0NNN being unknown, is decision D8, the spec's own choice
(notes/assumptions/8.md). -/
def Obligations.DecodeFollowsTheFieldSlices : Prop :=
  ∀ w : Word, decodeWord w =
    (if w.toNat = 0x00E0 then .ok .cls
     else if w.toNat / 4096 = 0x1 then .ok (.jp (BitVec.ofNat 12 (w.toNat % 4096)))
     else if w.toNat / 4096 = 0x6 then .ok (.ldVxNn (Fin.ofNat 16 (w.toNat / 256 % 16)) (BitVec.ofNat 8 (w.toNat % 256)))
     else if w.toNat / 4096 = 0x7 then .ok (.addVxNn (Fin.ofNat 16 (w.toNat / 256 % 16)) (BitVec.ofNat 8 (w.toNat % 256)))
     else if w.toNat / 4096 = 0xA then .ok (.ldINnn (BitVec.ofNat 12 (w.toNat % 4096)))
     else if w.toNat / 4096 = 0xD then
       .ok (.drw (Fin.ofNat 16 (w.toNat / 256 % 16)) (Fin.ofNat 16 (w.toNat / 16 % 16)) (w.toNat % 16))
     else .error (.unknown w))

/-- R73 (with decision D8, the spec's own choice of the full mask of 00E0, notes/assumptions/8.md): a word decodes
exactly when it selects a row of the opcode table, at most one row selects it, and the decoded instruction is that
row's. -/
def Obligations.DecodedWordsSelectOneRow : Prop :=
  (∀ w : Word, (∃ i, decodeWord w = .ok i) ↔ ∃ r ∈ opcodeTable, r.selects w = true) ∧
  (∀ w : Word, ∀ r ∈ opcodeTable, ∀ q ∈ opcodeTable, r.selects w = true → q.selects w = true → r = q) ∧
  (∀ (w : Word) (i : Instr), decodeWord w = .ok i → rowOf i ∈ opcodeTable ∧ (rowOf i).selects w = true)

/-- Words of spec/95_test_vectors.md decode to the instructions that they stand for. That 00EE is unknown rests on
decision D8, the spec's own choice (notes/assumptions/8.md). A sanity statement. -/
def Obligations.SampleWordsDecode : Prop :=
  decodeWord 0x00E0 = .ok .cls ∧ decodeWord 0x1234 = .ok (.jp 0x234) ∧ decodeWord 0x63A5 = .ok (.ldVxNn 3 0xA5) ∧
  decodeWord 0x7101 = .ok (.addVxNn 1 0x01) ∧ decodeWord 0xA20D = .ok (.ldINnn 0x20D) ∧
  decodeWord 0xD01F = .ok (.drw 0 1 15) ∧ decodeWord 0x5000 = .error (.unknown 0x5000) ∧
  decodeWord 0x00EE = .error (.unknown 0x00EE)

/-! ### The step (spec/40_control_flow.md R100 to R103, spec/60_exceptions.md R160 to R165) -/

/-- R101 (with decisions D5, D6 and D7, the spec's own choices: no wrap of an address, a failed fetch leaves `PC`, no
alignment check): a fetch whose two bytes lie in memory gives the big-endian word and advances `PC` by 2 and nothing
else, at an even or an odd `PC`; any other fetch raises `OutOfBounds`, the step changes nothing, and so does every
later step. -/
def Obligations.FetchAdvancesOrLocks : Prop :=
  ∀ s : State,
    (s.pc.toNat ≤ 0xFFE → ∃ w t, fetch s = .ok (w, t) ∧
      w.toNat = (s.byte s.pc.toNat).toNat * 256 + (s.byte (s.pc.toNat + 1)).toNat ∧
      t.pc.toNat = s.pc.toNat + 2 ∧ t.pc.toNat ≤ 0x1000 ∧ (∀ k, t.readV k = s.readV k) ∧ t.i = s.i ∧
      t.disp = s.disp ∧ UnwrittenKept s t) ∧
    (0xFFF ≤ s.pc.toNat → fetch s = .error .outOfBounds ∧ stepResult s = ⟨s, .error .outOfBounds⟩ ∧
      ∀ k, Host.Core.run core k s = .next s)

/-- R100, R101: when the bytes at `PC` decode to an instruction, the step is that instruction's meaning on the state
with `PC` advanced by 2, and its outcome is that instruction's. -/
def Obligations.StepRunsTheDecodedInstruction : Prop :=
  ∀ (s : State) (w : Word) (i : Instr), WordAtPc s w → decodeWord w = .ok i →
    step s = exec i (s.setPc (s.pc + 2)) ∧ stepResult s = effect i (s.setPc (s.pc + 2))

/-- R111: a word that no row of the opcode table matches is skipped: only the fetch advance of `PC` stays, and the
outcome is `UnknownInstruction`. -/
def Obligations.UnknownWordIsSkipped : Prop :=
  ∀ (s : State) (w : Word), WordAtPc s w → (∀ r ∈ opcodeTable, r.selects w = false) →
    ∃ t, step s = .next t ∧ stepResult s = ⟨t, .error .unknownInstruction⟩ ∧ t.pc.toNat = s.pc.toNat + 2 ∧
      (∀ k, t.readV k = s.readV k) ∧ t.i = s.i ∧ t.disp = s.disp ∧ UnwrittenKept s t

/-- R102, R162, R164: an error is precise. After an error in the fetch the state is the state before the step
(decision D6, the spec's own choice); after an error in the execute phase it is that state with `PC` advanced by 2. -/
def Obligations.ErrorsArePrecise : Prop :=
  ∀ (s : State) (e : Fault), (stepResult s).outcome = .error e →
    (0xFFF ≤ s.pc.toNat ∧ e = .outOfBounds ∧ step s = .next s ∧ (stepResult s).state = s) ∨
    (s.pc.toNat ≤ 0xFFE ∧ step s = .next (s.setPc (s.pc + 2)) ∧ (stepResult s).state = s.setPc (s.pc + 2))

/-- R160, R163 (decisions D5, D11 and D18, the spec's own choices): which outcome a step returns, phase by phase. Only
a fetch beyond memory or a draw whose sprite runs beyond memory returns `OutOfBounds`; only a word of no row returns
`UnknownInstruction`; every other step returns `Ok`. -/
def Obligations.OutcomeFollowsThePhases : Prop :=
  ∀ s : State,
    ((stepResult s).outcome = .error .outOfBounds ↔
      0xFFF ≤ s.pc.toNat ∨
      ∃ w x y n, WordAtPc s w ∧ decodeWord w = .ok (.drw x y n) ∧ ¬ SpriteReadable s y n) ∧
    ((stepResult s).outcome = .error .unknownInstruction ↔
      ∃ w, WordAtPc s w ∧ ∀ r ∈ opcodeTable, r.selects w = false) ∧
    (stepResult s).outcome ≠ .error .stackOverflow ∧ (stepResult s).outcome ≠ .error .stackUnderflow

/-- R103, R162: the core never stops: from every state a step answers a next state, the one that `stepResult` names.
-/
def Obligations.EveryStepAnswersNext : Prop :=
  ∀ s : State, ∃ t o, step s = .next t ∧ stepResult s = ⟨t, o⟩ ∧
    (o = .ok ∨ o = .error .outOfBounds ∨ o = .error .unknownInstruction)

/-- R114 (decision D22): a jump to itself is an idle loop: every later step returns `Ok` and changes no state. -/
def Obligations.JumpToItselfIdles : Prop :=
  ∀ (s : State) (nnn : BitVec 12), WordAtPc s (0x1#4 ++ nnn) → s.pc.toNat = nnn.toNat →
    ∀ k, Host.Core.run core k s = .next s ∧ RunOk k s

/-! ### The instructions: result, outcome and frame. The state is the one after the fetch (R100). -/

/-- R110: `PC` becomes exactly NNN whatever it was; nothing else changes, and no memory is read: another memory under
the same machine gives the same result. -/
def Obligations.JumpSetsPcToNnn : Prop :=
  ∀ (nnn : BitVec 12) (s : State),
    decodeWord (BitVec.ofNat 16 (0x1000 + nnn.toNat)) = .ok (.jp nnn) ∧
    ∃ t, exec (.jp nnn) s = .next t ∧ effect (.jp nnn) s = ⟨t, .ok⟩ ∧
      (∀ m, effect (.jp nnn) (s.setMem m) = ⟨t.setMem m, .ok⟩) ∧
      t.pc.toNat = nnn.toNat ∧ t.pc.toNat ≤ 0xFFF ∧ (∀ k, t.readV k = s.readV k) ∧ t.i = s.i ∧ t.disp = s.disp ∧
      UnwrittenKept s t

/-- R121: `V[X]` becomes NN, VF among the registers that X may name; nothing else changes. -/
def Obligations.LoadImmediateWritesVx : Prop :=
  ∀ (x : Fin 16) (nn : Byte) (s : State),
    decodeWord (BitVec.ofNat 16 (0x6000 + 0x100 * x.val + nn.toNat)) = .ok (.ldVxNn x nn) ∧
    ∃ t, exec (.ldVxNn x nn) s = .next t ∧ effect (.ldVxNn x nn) s = ⟨t, .ok⟩ ∧
      t.readV x = nn ∧ (∀ k, k ≠ x → t.readV k = s.readV k) ∧ t.i = s.i ∧ t.pc = s.pc ∧ t.disp = s.disp ∧
      UnwrittenKept s t

/-- R122: `V[X]` becomes the sum modulo 256; VF is written only as `V[X]`, with the sum itself; nothing else changes.
-/
def Obligations.AddImmediateWrapsWithoutCarry : Prop :=
  ∀ (x : Fin 16) (nn : Byte) (s : State),
    decodeWord (BitVec.ofNat 16 (0x7000 + 0x100 * x.val + nn.toNat)) = .ok (.addVxNn x nn) ∧
    ∃ t, exec (.addVxNn x nn) s = .next t ∧ effect (.addVxNn x nn) s = ⟨t, .ok⟩ ∧
      (t.readV x).toNat = ((s.readV x).toNat + nn.toNat) % 256 ∧ (∀ k, k ≠ x → t.readV k = s.readV k) ∧
      t.i = s.i ∧ t.pc = s.pc ∧ t.disp = s.disp ∧ UnwrittenKept s t

/-- R123: `I` becomes exactly NNN whatever it was; nothing else changes, and no memory is read. -/
def Obligations.LoadIndexSetsI : Prop :=
  ∀ (nnn : BitVec 12) (s : State),
    decodeWord (BitVec.ofNat 16 (0xA000 + nnn.toNat)) = .ok (.ldINnn nnn) ∧
    ∃ t, exec (.ldINnn nnn) s = .next t ∧ effect (.ldINnn nnn) s = ⟨t, .ok⟩ ∧
      (∀ m, effect (.ldINnn nnn) (s.setMem m) = ⟨t.setMem m, .ok⟩) ∧
      t.i.toNat = nnn.toNat ∧ t.i.toNat / 4096 = 0 ∧ (∀ k, t.readV k = s.readV k) ∧ t.pc = s.pc ∧ t.disp = s.disp ∧
      UnwrittenKept s t

/-- R140, R141: every cell becomes off, whatever it was; no register changes, VF among them, and no memory is read. -/
def Obligations.ClearTurnsEveryCellOff : Prop :=
  ∀ s : State,
    decodeWord 0x00E0 = .ok .cls ∧
    ∃ t, exec .cls s = .next t ∧ effect .cls s = ⟨t, .ok⟩ ∧
      (∀ m, effect .cls (s.setMem m) = ⟨t.setMem m, .ok⟩) ∧
      (∀ px py, px ≤ 63 → py ≤ 31 → t.cell px py = false) ∧ (∀ k, t.readV k = s.readV k) ∧ t.i = s.i ∧ t.pc = s.pc ∧
      UnwrittenKept s t

/-- The property of spec/95_test_vectors.md L1.1 (R120, R121, R122): 6XNN then 7XNN leaves `(NN1 + NN2) mod 256` in
`V[X]`, and every other register as it was, VF too unless X names it. -/
def Obligations.LoadThenAddLeavesTheSum : Prop :=
  ∀ (x : Fin 16) (a b : Byte) (s : State) (p : Word), ∃ t u,
    exec (.ldVxNn x a) s = .next t ∧ exec (.addVxNn x b) (t.setPc p) = .next u ∧
    (u.readV x).toNat = (a.toNat + b.toNat) % 256 ∧ ∀ k, k ≠ x → u.readV k = s.readV k

/-- R147 (with decisions D10 and D11, the spec's own choices): when every drawn row's byte lies in memory, a draw
completes; VF is 1 when a drawn pixel lands on a cell that was on and 0 otherwise; each drawn cell is flipped, every
other cell, register and byte is as before; and each row and column of the sprite names a cell of its own. X and Y may
name VF: the coordinates are its value before. -/
def Obligations.DrawFlipsTheSpriteCells : Prop :=
  ∀ (x y : Fin 16) (n : Nat) (s : State), SpriteReadable s y n →
    ∃ t, exec (.drw x y n) s = .next t ∧ effect (.drw x y n) s = ⟨t, .ok⟩ ∧
      ((∃ px py, Drawn s x y n px py ∧ s.cell px py = true) → t.readV 15 = 1) ∧
      ((∀ px py, Drawn s x y n px py → s.cell px py = false) → t.readV 15 = 0) ∧
      (∀ px py, Drawn s x y n px py → t.cell px py = !s.cell px py) ∧
      (∀ px py, ¬ Drawn s x y n px py → t.cell px py = s.cell px py) ∧
      (∀ x0 y0 r c r' c' : Nat, (x0 + c, y0 + r) = (x0 + c', y0 + r') → r = r' ∧ c = c') ∧
      (∀ k, k ≠ 15 → t.readV k = s.readV k) ∧ t.i = s.i ∧ t.pc = s.pc ∧ UnwrittenKept s t

/-- R145, R102 (decisions D5 and D11, the spec's own choices): when some row to be drawn has its byte beyond 0xFFF,
the draw raises `OutOfBounds` and leaves the state after the fetch untouched: no cell changes and VF keeps its value.
It raises in no other case. -/
def Obligations.DrawBeyondMemoryHasNoEffect : Prop :=
  ∀ (x y : Fin 16) (n : Nat) (s : State),
    ((∃ r, r < min n (32 - (s.readV y).toNat % 32) ∧ 0xFFF < s.i.toNat + r) →
      exec (.drw x y n) s = .next s ∧ effect (.drw x y n) s = ⟨s, .error .outOfBounds⟩) ∧
    (SpriteReadable s y n → (effect (.drw x y n) s).outcome = .ok)

/-- R146 (decision D9, the spec's own choice): with N = 0 no memory is read, no cell changes and VF becomes 0,
whatever `I` holds. -/
def Obligations.DrawOfHeightZeroOnlyClearsVf : Prop :=
  ∀ (x y : Fin 16) (s : State), ∃ t,
    exec (.drw x y 0) s = .next t ∧ effect (.drw x y 0) s = ⟨t, .ok⟩ ∧
    (∀ m, effect (.drw x y 0) (s.setMem m) = ⟨t.setMem m, .ok⟩) ∧ t.readV 15 = 0 ∧
    (∀ px py, t.cell px py = s.cell px py) ∧ (∀ k, k ≠ 15 → t.readV k = s.readV k) ∧ t.i = s.i ∧ t.pc = s.pc ∧
    UnwrittenKept s t

/-- R148, the corrected involution law (conflict C2): with neither X nor Y naming VF, the same draw twice restores the
display, and VF is then 1 when some drawn bit lands on a cell that was off before the first draw, and 0 otherwise.
Only `PC` may differ between the first draw's end and the second's start. -/
def Obligations.DrawTwiceRestoresTheDisplay : Prop :=
  ∀ (x y : Fin 16) (n : Nat) (s : State) (p : Word), x ≠ 15 → y ≠ 15 → SpriteReadable s y n →
    ∃ t u, effect (.drw x y n) s = ⟨t, .ok⟩ ∧ effect (.drw x y n) (t.setPc p) = ⟨u, .ok⟩ ∧
      exec (.drw x y n) (t.setPc p) = .next u ∧ u.disp = s.disp ∧
      ((∃ px py, Drawn s x y n px py ∧ s.cell px py = false) → u.readV 15 = 1) ∧
      ((∀ px py, Drawn s x y n px py → s.cell px py = true) → u.readV 15 = 0)

/-- R148, R143 (decision D10, the spec's own choice): the first draw rewrites VF, so a draw whose X or Y names VF may
start elsewhere the second time, and the involution law fails for some such draw of each kind. -/
def Obligations.DrawTwiceThroughVfNeedNotRestore : Prop :=
  (∃ (y : Fin 16) (n : Nat) (s : State), y ≠ 15 ∧ SpriteReadable s y n ∧
    (effect (.drw 15 y n) (effect (.drw 15 y n) s).state).state.disp ≠ s.disp) ∧
  (∃ (x : Fin 16) (n : Nat) (s : State), x ≠ 15 ∧ SpriteReadable s 15 n ∧
    (effect (.drw x 15 n) (effect (.drw x 15 n) s).state).state.disp ≠ s.disp)

/-- R149: no cell that a draw flips lies off the grid, so the one error of a draw is a sprite byte beyond memory. -/
def Obligations.DrawStaysOnTheGrid : Prop :=
  ∀ (x y : Fin 16) (n : Nat) (s : State),
    (∀ r c, r < rowsDrawn n (originY (s.readV y)) → c < colsDrawn (originX (s.readV x)) →
      originX (s.readV x) + c ≤ 63 ∧ originY (s.readV y) + r ≤ 31) ∧
    (∀ e, (effect (.drw x y n) s).outcome = .error e → e = .outOfBounds ∧ ∃ r, r < n ∧ 0xFFF < s.i.toNat + r)

/-- R144 (decision D11, the spec's own choice): a draw depends on memory only through the bytes of the rows that it
draws. Two machines that differ in nothing but memory, and agree on those bytes, draw the same. -/
def Obligations.DrawReadsOnlyTheDrawnRows : Prop :=
  ∀ (x y : Fin 16) (n : Nat) (s : State) (m : Memory),
    (∀ r, r < min n (32 - (s.readV y).toNat % 32) → (s.setMem m).byte (s.i.toNat + r) = s.byte (s.i.toNat + r)) →
    effect (.drw x y n) (s.setMem m) = ⟨(effect (.drw x y n) s).state.setMem m, (effect (.drw x y n) s).outcome⟩

/-! ### Rules over all instructions (spec/10_state.md R21 to R34, spec/20_memory.md R50) -/

/-- The `writes` column of R21, and R22 and R27: a register that an instruction changes is `V[X]` of 6XNN or 7XNN, or
VF of DXYN. -/
def Obligations.RegisterWritesFollowTheTable : Prop :=
  ∀ (i : Instr) (s t : State), exec i s = .next t → ∀ k, t.readV k ≠ s.readV k →
    (∃ nn, i = .ldVxNn k nn) ∨ (∃ nn, i = .addVxNn k nn) ∨ (k = 15 ∧ ∃ x y n, i = .drw x y n)

/-- R24: only the fetch advance and 1NNN write `PC`. That a failed fetch, at `PC` 0xFFF or above, leaves `PC` as it
was (R101, the first case) is decisions D5 and D6, the spec's own choices (notes/assumptions/5.md and 6.md). -/
def Obligations.OnlyFetchAndJumpWritePc : Prop :=
  ∀ s t : State, step s = .next t →
    (0xFFF ≤ s.pc.toNat ∧ t.pc = s.pc) ∨
    (s.pc.toNat ≤ 0xFFE ∧ t.pc.toNat = s.pc.toNat + 2) ∨
    (∃ nnn : BitVec 12, WordAtPc s (0x1#4 ++ nnn) ∧ t.pc.toNat = nnn.toNat)

/-- R23 and R33: only ANNN writes `I`, and only 00E0 and DXYN change the display. -/
def Obligations.IndexAndDisplayWriters : Prop :=
  ∀ (i : Instr) (s t : State), exec i s = .next t →
    (t.i ≠ s.i → ∃ nnn, i = .ldINnn nnn ∧ t.i.toNat = nnn.toNat) ∧
    (t.disp ≠ s.disp → i = .cls ∨ ∃ x y n, i = .drw x y n)

/-- R50, R25, R26, R31, R34: no step, whatever word it meets, writes memory, a timer, the stack or the key latch. -/
def Obligations.StepKeepsMemoryTimersStackKeys : Prop :=
  ∀ s t : State, step s = .next t → UnwrittenKept s t ∧ t.mem = s.mem

/-- R34 (decision D17: the latch is the spec's own choice): no instruction reads `KEYS`: a step after `set_keys` is
the step without it, with the mask in the latch. -/
def Obligations.KeysAreNotRead : Prop :=
  ∀ (mask : Word) (s : State),
    stepResult (setKeys mask s) = ⟨setKeys mask (stepResult s).state, (stepResult s).outcome⟩

/-- R25, R26, R171: no instruction reads or writes a timer, so a tick before a step and a tick after it leave the same
machine, with the same outcome. -/
def Obligations.TickAndStepCommute : Prop :=
  ∀ s : State, stepResult (tick s) = ⟨tick (stepResult s).state, (stepResult s).outcome⟩

/-! ### Primitives over memory and the stack (spec/20_memory.md R54, R55; spec/10_state.md R29 to R31) -/

/-- R54, R55 (decision D5, the spec's own choice): an address above 0xFFF raises `OutOfBounds` on a read and on a
write; a write at a valid address is read back there, leaves every other byte and every other part of the machine
alone, and keeps the memory's canonical form (the form is the model's own, notes/assumptions/2.md). -/
def Obligations.WrittenByteIsReadBack : Prop :=
  ∀ (a : Nat) (b : Byte) (s : State),
    (0xFFF < a → memRead a s = .error .outOfBounds ∧ memWrite a b s = .error .outOfBounds) ∧
    (a ≤ 0xFFF → s.mem.wf = true → ∃ t, memWrite a b s = .ok t ∧ t.mem.wf = true ∧ memRead a t = .ok b ∧
      (∀ c, c ≠ a → memRead c t = memRead c s) ∧
      t.v = s.v ∧ t.i = s.i ∧ t.pc = s.pc ∧ t.dt = s.dt ∧ t.st = s.st ∧ t.stack = s.stack ∧ t.disp = s.disp ∧
      t.keys = s.keys)

/-- The model's own canonical form (notes/assumptions/2.md): two memories in it that read the same at every address
are one memory. -/
def Obligations.CanonicalMemoriesAreEqual : Prop :=
  ∀ m m' : Memory, m.wf = true → m'.wf = true → (∀ a, a ≤ 0xFFF → m.read a = m'.read a) → m = m'

/-- R30 (decision D13, the spec's own choice): a push on a full stack raises `StackOverflow`; any other push appends
the address and changes nothing else. -/
def Obligations.PushAppendsOrOverflows : Prop :=
  ∀ (depth : Nat) (a : Word) (s : State),
    (s.stack.length = depth → stackPush depth a s = .error .stackOverflow) ∧
    (s.stack.length ≠ depth → ∃ t, stackPush depth a s = .ok t ∧ t.stack = s.stack ++ [a] ∧
      (∀ k, t.readV k = s.readV k) ∧ t.i = s.i ∧ t.pc = s.pc ∧ t.dt = s.dt ∧ t.st = s.st ∧ t.disp = s.disp ∧
      t.keys = s.keys ∧ ∀ c, t.byte c = s.byte c)

/-- R30, R31 (decision D13, the spec's own choice): a pop on an empty stack raises `StackUnderflow`; a pop after a
push returns the pushed address and the state before the push. -/
def Obligations.PopReturnsTheLastPush : Prop :=
  (∀ s : State, s.stack = [] → stackPop s = .error .stackUnderflow) ∧
  (∀ (depth : Nat) (a : Word) (s t : State), stackPush depth a s = .ok t → stackPop t = .ok (a, s))

/-! ### Construction and reset (spec/70_reset_and_hazards.md R190 to R195) -/

/-- R190: an image longer than 3584 bytes gives `ProgramTooLarge`; any other image gives a machine. -/
def Obligations.ConstructRefusesOnlyLongImages : Prop :=
  ∀ (cfg : Config) (program : List Byte),
    (program.length > 4096 - 0x200 → construct cfg program = .error .programTooLarge) ∧
    (program.length ≤ 3584 → ∃ m, construct cfg program = .ok m)

/-- R191: what `construct` leaves, for every font and every image that fits: the font at 0x050 to 0x09F, the program
from 0x200, 0 at every other address (decision D2, the spec's own choice), and every other element at its reset value
(for `KEYS`, decision D17, the spec's own choice). -/
def Obligations.ConstructPlacesFontAndProgram : Prop :=
  ∀ (cfg : Config) (program : List Byte) (m : State), construct cfg program = .ok m →
    (∀ (k : Nat) (h : k < 80), memRead (0x050 + k) m = .ok (cfg.font[k]'h)) ∧
    (∀ (k : Nat) (h : k < program.length), memRead (0x200 + k) m = .ok (program[k]'h)) ∧
    (∀ a, a ≤ 0xFFF → ¬ (0x050 ≤ a ∧ a ≤ 0x09F) → ¬ (0x200 ≤ a ∧ a < 0x200 + program.length) → memRead a m = .ok 0) ∧
    (∀ k, m.readV k = 0) ∧ m.i = 0 ∧ m.pc = 0x200 ∧ m.dt = 0 ∧ m.st = 0 ∧ m.stack = [] ∧
    (∀ px py, m.cell px py = false) ∧ m.keys = 0

/-- R20, R193: the reset values. Memory outside the font reads as 0 and `KEYS` is 0 (decisions D2 and D17, the spec's
own choices); the font's bytes are left out, since the spec makes them a parameter. -/
def Obligations.ResetHoldsTheResetValues : Prop :=
  (∀ k, State.reset.readV k = 0) ∧ State.reset.i = 0 ∧ State.reset.pc.toNat = 0x200 ∧ State.reset.dt = 0 ∧
  State.reset.st = 0 ∧ State.reset.stack = [] ∧ (∀ px py, State.reset.cell px py = false) ∧ State.reset.keys = 0 ∧
  ∀ a, a ≤ 0xFFF → ¬ (0x050 ≤ a ∧ a ≤ 0x09F) → memRead a State.reset = .ok 0

/-- R191, R192, R194: the model's reset state is the machine that `construct` leaves for an empty image exactly when
the font is the default one (which the spec marks as general knowledge, notes/assumptions/3.md). The stack depth and
the frame budget play no part. -/
def Obligations.ResetIsTheEmptyMachine : Prop :=
  ∀ cfg : Config, construct cfg [] = .ok State.reset ↔ cfg.font = defaultFont

/-- R11, R50: an instruction placed where the next step fetches is the one that the next step fetches, at `PC` when
the fetch can succeed there. A statement about the model's own `withFetchWord` (notes/assumptions/4.md). -/
def Obligations.PlacedWordIsFetched : Prop :=
  ∀ (s : State) (w : Word), s.mem.wf = true →
    WordAtPc (s.withFetchWord 16 w.toNat) w ∧ (s.withFetchWord 16 w.toNat).mem.wf = true ∧
    (s.pc.toNat ≤ 0xFFE → (s.withFetchWord 16 w.toNat).pc = s.pc)

/-! ### tick, set_keys, sound and snapshot (spec/10_state.md R43 to R46, spec/60_exceptions.md R170) -/

/-- R170: a tick decrements each timer by 1, floored at 0, and changes nothing else. -/
def Obligations.TickCountsDownToZero : Prop :=
  ∀ s : State,
    (s.dt.toNat > 0 → (tick s).dt.toNat = s.dt.toNat - 1) ∧ (s.dt.toNat = 0 → (tick s).dt.toNat = 0) ∧
    (s.st.toNat > 0 → (tick s).st.toNat = s.st.toNat - 1) ∧ (s.st.toNat = 0 → (tick s).st.toNat = 0) ∧
    (∀ k, (tick s).readV k = s.readV k) ∧ (tick s).i = s.i ∧ (tick s).pc = s.pc ∧ (tick s).stack = s.stack ∧
    (tick s).disp = s.disp ∧ (tick s).keys = s.keys ∧ (∀ a, (tick s).byte a = s.byte a) ∧
    (perform .tick s).1 = .nothing

/-- R46 (decision D17, the spec's own choice): `set_keys` sets `KEYS` and changes nothing else. -/
def Obligations.SetKeysWritesOnlyTheLatch : Prop :=
  ∀ (mask : Word) (s : State), ∃ t, (perform (.setKeys mask) s).2 = t ∧ t.keys = mask ∧
    (∀ k, t.readV k = s.readV k) ∧ t.i = s.i ∧ t.pc = s.pc ∧ t.dt = s.dt ∧ t.st = s.st ∧ t.stack = s.stack ∧
    t.disp = s.disp ∧ ∀ a, t.byte a = s.byte a

/-- R45: `sound` returns `ST` and changes no state; the tone is on exactly when `ST` is not 0. -/
def Obligations.SoundReturnsTheSoundTimer : Prop :=
  ∀ s : State, perform .sound s = (.level s.st, s) ∧ (toneOn s = true ↔ s.st.toNat ≠ 0)

/-- R44 (decision D12, the spec's own choice of the order): `snapshot` has 2048 elements, element `k` is `Disp[k div
32][k mod 32]`, and no state changes. -/
def Obligations.SnapshotIsColumnMajor : Prop :=
  ∀ s : State, perform .snapshot s = (.pixels (snapshot s), s) ∧ (snapshot s).length = 2048 ∧
    ∀ k, k ≤ 2047 → (snapshot s)[k]? = some (s.cell (k / 32) (k % 32))

/-- R176: the reference frame leaves the machine that its steps, then the key mask, then one tick leave; the core
replies once to each of its operations, the last two replies being the final picture and the sound timer. Where
`set_keys` stands in the frame is the spec's own choice (decision D16). -/
def Obligations.FrameRunsTheBudgetThenTicks : Prop :=
  ∀ (cfg : Config) (mask : Word) (s : State),
    let stepped := Nat.iterate (fun m => (stepResult m).state) cfg.cyclesPerFrame s
    (runOps (frameOps cfg mask) s).2 = tick (setKeys mask stepped) ∧
    (runOps (frameOps cfg mask) s).1.length = cfg.cyclesPerFrame + 4 ∧
    ∃ outcomes : List StepOutcome, outcomes.length = cfg.cyclesPerFrame ∧
      (runOps (frameOps cfg mask) s).1 =
        outcomes.map Reply.outcome ++ [.nothing, .nothing, .pixels (snapshot stepped), .level (countDown stepped.st)]

/-! ### Invariants and reachable states -/

/-- Every step keeps the invariant: the canonical memory (the model's own form, notes/assumptions/2.md), `PC` at most
0x1000 (R24), `I[15:12] = 0` (R23) and the stack's bound (R29), from every state that meets it. -/
def Obligations.StepKeepsTheInvariant : Prop :=
  ∀ (depth : Nat) (s t : State), Inv depth s → step s = .next t → Inv depth t

/-- The reset state meets the invariant, for every stack depth (its canonical memory is the model's own form,
notes/assumptions/2.md). -/
def Obligations.ResetMeetsTheInvariant : Prop := ∀ depth : Nat, Inv depth State.reset

/-- Every operation of the driver keeps the invariant (R176): step, tick, set_keys, snapshot and sound. The canonical
memory of the invariant is the model's own form (notes/assumptions/2.md). -/
def Obligations.OperationsKeepTheInvariant : Prop :=
  ∀ (depth : Nat) (ops : List DriverOp) (s : State), Inv depth s → Inv depth (runOps ops s).2

/-- Every state that any driver reaches, with any font, program and stack depth, meets the invariant (R23, R24, R29).
Its canonical memory is the model's own form (notes/assumptions/2.md). -/
def Obligations.ReachableStatesMeetTheInvariant : Prop :=
  ∀ (cfg : Config) (s : State), Reachable cfg s → Inv cfg.stackDepth s

/-- R31, R172: in every reachable state the stack is empty and both timers are 0, `sound` is silent, a tick changes
nothing and no step returns a stack error. -/
def Obligations.ReachableTimersAndStackStayReset : Prop :=
  ∀ (cfg : Config) (s : State), Reachable cfg s →
    s.stack = [] ∧ s.dt = 0 ∧ s.st = 0 ∧ sound s = 0 ∧ toneOn s = false ∧ tick s = s ∧
    (stepResult s).outcome ≠ .error .stackOverflow ∧ (stepResult s).outcome ≠ .error .stackUnderflow

/-- R60, R63: every memory read in a run returns the byte that `construct` placed there, after any operations. -/
def Obligations.EveryReadReturnsTheConstructedByte : Prop :=
  ∀ (cfg : Config) (program : List Byte) (m : State) (ops : List DriverOp), construct cfg program = .ok m →
    ∀ a, memRead a (runOps ops m).2 = memRead a m

/-- R34, R35 (decision D17: the latch is the spec's own choice, notes/assumptions/17.md): the key latch is hidden from
programs. Whatever masks the driver sets and wherever it sets them, the registers, the display and the outcome of the
next step are those of the run without any `set_keys`. -/
def Obligations.KeySchedulesAreUnobservable : Prop :=
  ∀ (ops : List DriverOp) (s : State),
    let withKeys := (runOps ops s).2
    let without := (runOps (ops.filter fun op => match op with | .setKeys _ => false | _ => true) s).2
    withKeys.setKeyLatch 0 = without.setKeyLatch 0 ∧
    (stepResult withKeys).outcome = (stepResult without).outcome ∧ snapshot withKeys = snapshot without ∧
    sound withKeys = sound without

/-- R31, R172, as a law of one operation: from every state whose stack is empty and whose timers are 0, reached by a
run or not, every operation of the driver leaves such a state, whatever word a step meets. -/
def Obligations.OperationsKeepTimersAndStackReset : Prop :=
  ∀ (op : DriverOp) (s : State), s.stack = [] ∧ s.dt = 0 ∧ s.st = 0 →
    (perform op s).2.stack = [] ∧ (perform op s).2.dt = 0 ∧ (perform op s).2.st = 0

/-- R60, R63, as a law of one operation: from every state, reached by a run or not, no operation of the driver changes
what a read of any address answers. -/
def Obligations.OperationsKeepEveryRead : Prop :=
  ∀ (op : DriverOp) (s : State) (a : Nat), memRead a (perform op s).2 = memRead a s
end

