-- ==== Sys2Proof/Laws/State.lean ====
section
/-! SUPPORT. One lemma per field and update of the state, and how each accessor reads after each update, so that no
proof unfolds a record update. -/

namespace Sys2Proof.Machine

variable (s : State)

/-! ### After `setV` -/

@[simp] theorem State.setV_mem (x : Fin 16) (b : Byte) : (s.setV x b).mem = s.mem := rfl
@[simp] theorem State.setV_v (x : Fin 16) (b : Byte) : (s.setV x b).v = s.v.set x b := rfl
@[simp] theorem State.setV_i (x : Fin 16) (b : Byte) : (s.setV x b).i = s.i := rfl
@[simp] theorem State.setV_pc (x : Fin 16) (b : Byte) : (s.setV x b).pc = s.pc := rfl
@[simp] theorem State.setV_dt (x : Fin 16) (b : Byte) : (s.setV x b).dt = s.dt := rfl
@[simp] theorem State.setV_st (x : Fin 16) (b : Byte) : (s.setV x b).st = s.st := rfl
@[simp] theorem State.setV_stack (x : Fin 16) (b : Byte) : (s.setV x b).stack = s.stack := rfl
@[simp] theorem State.setV_disp (x : Fin 16) (b : Byte) : (s.setV x b).disp = s.disp := rfl
@[simp] theorem State.setV_keys (x : Fin 16) (b : Byte) : (s.setV x b).keys = s.keys := rfl
@[simp] theorem State.setV_byte (x : Fin 16) (b : Byte) (c : Nat) : (s.setV x b).byte c = s.byte c := rfl
@[simp] theorem State.setV_cell (x : Fin 16) (b : Byte) (px py : Nat) : (s.setV x b).cell px py = s.cell px py := rfl

/-! ### After `setI` -/

@[simp] theorem State.setI_mem (w : Word) : (s.setI w).mem = s.mem := rfl
@[simp] theorem State.setI_v (w : Word) : (s.setI w).v = s.v := rfl
@[simp] theorem State.setI_i (w : Word) : (s.setI w).i = w := rfl
@[simp] theorem State.setI_pc (w : Word) : (s.setI w).pc = s.pc := rfl
@[simp] theorem State.setI_dt (w : Word) : (s.setI w).dt = s.dt := rfl
@[simp] theorem State.setI_st (w : Word) : (s.setI w).st = s.st := rfl
@[simp] theorem State.setI_stack (w : Word) : (s.setI w).stack = s.stack := rfl
@[simp] theorem State.setI_disp (w : Word) : (s.setI w).disp = s.disp := rfl
@[simp] theorem State.setI_keys (w : Word) : (s.setI w).keys = s.keys := rfl
@[simp] theorem State.setI_byte (w : Word) (c : Nat) : (s.setI w).byte c = s.byte c := rfl
@[simp] theorem State.setI_readV (w : Word) (k : Fin 16) : (s.setI w).readV k = s.readV k := rfl
@[simp] theorem State.setI_cell (w : Word) (px py : Nat) : (s.setI w).cell px py = s.cell px py := rfl

/-! ### After `setPc` -/

@[simp] theorem State.setPc_mem (w : Word) : (s.setPc w).mem = s.mem := rfl
@[simp] theorem State.setPc_v (w : Word) : (s.setPc w).v = s.v := rfl
@[simp] theorem State.setPc_i (w : Word) : (s.setPc w).i = s.i := rfl
@[simp] theorem State.setPc_pc (w : Word) : (s.setPc w).pc = w := rfl
@[simp] theorem State.setPc_dt (w : Word) : (s.setPc w).dt = s.dt := rfl
@[simp] theorem State.setPc_st (w : Word) : (s.setPc w).st = s.st := rfl
@[simp] theorem State.setPc_stack (w : Word) : (s.setPc w).stack = s.stack := rfl
@[simp] theorem State.setPc_disp (w : Word) : (s.setPc w).disp = s.disp := rfl
@[simp] theorem State.setPc_keys (w : Word) : (s.setPc w).keys = s.keys := rfl
@[simp] theorem State.setPc_byte (w : Word) (c : Nat) : (s.setPc w).byte c = s.byte c := rfl
@[simp] theorem State.setPc_readV (w : Word) (k : Fin 16) : (s.setPc w).readV k = s.readV k := rfl
@[simp] theorem State.setPc_cell (w : Word) (px py : Nat) : (s.setPc w).cell px py = s.cell px py := rfl

/-! ### After `setTimers` -/

@[simp] theorem State.setTimers_mem (a b : Byte) : (s.setTimers a b).mem = s.mem := rfl
@[simp] theorem State.setTimers_v (a b : Byte) : (s.setTimers a b).v = s.v := rfl
@[simp] theorem State.setTimers_i (a b : Byte) : (s.setTimers a b).i = s.i := rfl
@[simp] theorem State.setTimers_pc (a b : Byte) : (s.setTimers a b).pc = s.pc := rfl
@[simp] theorem State.setTimers_dt (a b : Byte) : (s.setTimers a b).dt = a := rfl
@[simp] theorem State.setTimers_st (a b : Byte) : (s.setTimers a b).st = b := rfl
@[simp] theorem State.setTimers_stack (a b : Byte) : (s.setTimers a b).stack = s.stack := rfl
@[simp] theorem State.setTimers_disp (a b : Byte) : (s.setTimers a b).disp = s.disp := rfl
@[simp] theorem State.setTimers_keys (a b : Byte) : (s.setTimers a b).keys = s.keys := rfl
@[simp] theorem State.setTimers_byte (a b : Byte) (c : Nat) : (s.setTimers a b).byte c = s.byte c := rfl
@[simp] theorem State.setTimers_readV (a b : Byte) (k : Fin 16) : (s.setTimers a b).readV k = s.readV k := rfl
@[simp] theorem State.setTimers_cell (a b : Byte) (px py : Nat) : (s.setTimers a b).cell px py = s.cell px py := rfl

/-! ### After `setStack` -/

@[simp] theorem State.setStack_mem (l : List Word) : (s.setStack l).mem = s.mem := rfl
@[simp] theorem State.setStack_v (l : List Word) : (s.setStack l).v = s.v := rfl
@[simp] theorem State.setStack_i (l : List Word) : (s.setStack l).i = s.i := rfl
@[simp] theorem State.setStack_pc (l : List Word) : (s.setStack l).pc = s.pc := rfl
@[simp] theorem State.setStack_dt (l : List Word) : (s.setStack l).dt = s.dt := rfl
@[simp] theorem State.setStack_st (l : List Word) : (s.setStack l).st = s.st := rfl
@[simp] theorem State.setStack_stack (l : List Word) : (s.setStack l).stack = l := rfl
@[simp] theorem State.setStack_disp (l : List Word) : (s.setStack l).disp = s.disp := rfl
@[simp] theorem State.setStack_keys (l : List Word) : (s.setStack l).keys = s.keys := rfl
@[simp] theorem State.setStack_byte (l : List Word) (c : Nat) : (s.setStack l).byte c = s.byte c := rfl
@[simp] theorem State.setStack_readV (l : List Word) (k : Fin 16) : (s.setStack l).readV k = s.readV k := rfl
@[simp] theorem State.setStack_cell (l : List Word) (px py : Nat) : (s.setStack l).cell px py = s.cell px py := rfl

/-! ### After `setDisp` -/

@[simp] theorem State.setDisp_mem (d : Display) : (s.setDisp d).mem = s.mem := rfl
@[simp] theorem State.setDisp_v (d : Display) : (s.setDisp d).v = s.v := rfl
@[simp] theorem State.setDisp_i (d : Display) : (s.setDisp d).i = s.i := rfl
@[simp] theorem State.setDisp_pc (d : Display) : (s.setDisp d).pc = s.pc := rfl
@[simp] theorem State.setDisp_dt (d : Display) : (s.setDisp d).dt = s.dt := rfl
@[simp] theorem State.setDisp_st (d : Display) : (s.setDisp d).st = s.st := rfl
@[simp] theorem State.setDisp_stack (d : Display) : (s.setDisp d).stack = s.stack := rfl
@[simp] theorem State.setDisp_disp (d : Display) : (s.setDisp d).disp = d := rfl
@[simp] theorem State.setDisp_keys (d : Display) : (s.setDisp d).keys = s.keys := rfl
@[simp] theorem State.setDisp_byte (d : Display) (c : Nat) : (s.setDisp d).byte c = s.byte c := rfl
@[simp] theorem State.setDisp_readV (d : Display) (k : Fin 16) : (s.setDisp d).readV k = s.readV k := rfl

/-! ### After `setKeyLatch` -/

@[simp] theorem State.setKeyLatch_mem (m : Word) : (s.setKeyLatch m).mem = s.mem := rfl
@[simp] theorem State.setKeyLatch_v (m : Word) : (s.setKeyLatch m).v = s.v := rfl
@[simp] theorem State.setKeyLatch_i (m : Word) : (s.setKeyLatch m).i = s.i := rfl
@[simp] theorem State.setKeyLatch_pc (m : Word) : (s.setKeyLatch m).pc = s.pc := rfl
@[simp] theorem State.setKeyLatch_dt (m : Word) : (s.setKeyLatch m).dt = s.dt := rfl
@[simp] theorem State.setKeyLatch_st (m : Word) : (s.setKeyLatch m).st = s.st := rfl
@[simp] theorem State.setKeyLatch_stack (m : Word) : (s.setKeyLatch m).stack = s.stack := rfl
@[simp] theorem State.setKeyLatch_disp (m : Word) : (s.setKeyLatch m).disp = s.disp := rfl
@[simp] theorem State.setKeyLatch_keys (m : Word) : (s.setKeyLatch m).keys = m := rfl
@[simp] theorem State.setKeyLatch_byte (m : Word) (c : Nat) : (s.setKeyLatch m).byte c = s.byte c := rfl
@[simp] theorem State.setKeyLatch_readV (m : Word) (k : Fin 16) : (s.setKeyLatch m).readV k = s.readV k := rfl
@[simp] theorem State.setKeyLatch_cell (m : Word) (px py : Nat) : (s.setKeyLatch m).cell px py = s.cell px py := rfl

/-! ### After `setMem` -/

@[simp] theorem State.setMem_mem (m : Memory) : (s.setMem m).mem = m := rfl
@[simp] theorem State.setMem_v (m : Memory) : (s.setMem m).v = s.v := rfl
@[simp] theorem State.setMem_i (m : Memory) : (s.setMem m).i = s.i := rfl
@[simp] theorem State.setMem_pc (m : Memory) : (s.setMem m).pc = s.pc := rfl
@[simp] theorem State.setMem_dt (m : Memory) : (s.setMem m).dt = s.dt := rfl
@[simp] theorem State.setMem_st (m : Memory) : (s.setMem m).st = s.st := rfl
@[simp] theorem State.setMem_stack (m : Memory) : (s.setMem m).stack = s.stack := rfl
@[simp] theorem State.setMem_disp (m : Memory) : (s.setMem m).disp = s.disp := rfl
@[simp] theorem State.setMem_keys (m : Memory) : (s.setMem m).keys = s.keys := rfl
@[simp] theorem State.setMem_readV (m : Memory) (k : Fin 16) : (s.setMem m).readV k = s.readV k := rfl
@[simp] theorem State.setMem_cell (m : Memory) (px py : Nat) : (s.setMem m).cell px py = s.cell px py := rfl

/-! ### After `advancePc` -/

@[simp] theorem State.advancePc_mem : (s.advancePc).mem = s.mem := rfl
@[simp] theorem State.advancePc_v : (s.advancePc).v = s.v := rfl
@[simp] theorem State.advancePc_i : (s.advancePc).i = s.i := rfl
@[simp] theorem State.advancePc_pc : (s.advancePc).pc = s.pc + 2 := rfl
@[simp] theorem State.advancePc_dt : (s.advancePc).dt = s.dt := rfl
@[simp] theorem State.advancePc_st : (s.advancePc).st = s.st := rfl
@[simp] theorem State.advancePc_stack : (s.advancePc).stack = s.stack := rfl
@[simp] theorem State.advancePc_disp : (s.advancePc).disp = s.disp := rfl
@[simp] theorem State.advancePc_keys : (s.advancePc).keys = s.keys := rfl
@[simp] theorem State.advancePc_byte (c : Nat) : (s.advancePc).byte c = s.byte c := rfl
@[simp] theorem State.advancePc_readV (k : Fin 16) : (s.advancePc).readV k = s.readV k := rfl
@[simp] theorem State.advancePc_cell (px py : Nat) : (s.advancePc).cell px py = s.cell px py := rfl

/-! ### The accessors that an update does change -/

@[simp] theorem State.setMem_byte (m : Memory) (c : Nat) : (s.setMem m).byte c = m.read c := rfl
@[simp] theorem State.setDisp_cell (d : Display) (px py : Nat) : (s.setDisp d).cell px py = d.cell px py := rfl

@[simp] theorem State.setV_readV_self (x : Fin 16) (b : Byte) : (s.setV x b).readV x = b := by
  simp [State.setV, State.readV]

theorem State.setV_readV_ne {x k : Fin 16} (h : k ≠ x) (b : Byte) : (s.setV x b).readV k = s.readV k := by
  have : (x : Nat) ≠ (k : Nat) := fun e => h (Fin.ext e.symm)
  simp [State.setV, State.readV, Vector.getElem_set_ne _ _ this]

theorem State.setV_readV (x k : Fin 16) (b : Byte) : (s.setV x b).readV k = if k = x then b else s.readV k := by
  split
  · next h => simp [h]
  · next h => exact s.setV_readV_ne h b

/-! ### Two states with the same fields are one state -/

theorem State.ext_fields {s t : State} (hm : s.mem = t.mem) (hv : s.v = t.v) (hi : s.i = t.i) (hp : s.pc = t.pc)
    (hd : s.dt = t.dt) (hs : s.st = t.st) (hk : s.stack = t.stack) (hg : s.disp = t.disp) (hy : s.keys = t.keys) :
    s = t := by
  cases s; cases t; simp_all

@[simp] theorem State.setPc_setPc (a b : Word) : (s.setPc a).setPc b = s.setPc b := rfl

/-! ### Reset -/

@[simp] theorem State.reset_mem : State.reset.mem = [] := rfl
@[simp] theorem State.reset_i : State.reset.i = 0 := rfl
@[simp] theorem State.reset_pc : State.reset.pc = 0x200 := rfl
@[simp] theorem State.reset_dt : State.reset.dt = 0 := rfl
@[simp] theorem State.reset_st : State.reset.st = 0 := rfl
@[simp] theorem State.reset_stack : State.reset.stack = [] := rfl
@[simp] theorem State.reset_keys : State.reset.keys = 0 := rfl
@[simp] theorem State.reset_disp : State.reset.disp = Display.blank := rfl
@[simp] theorem State.reset_byte (a : Nat) : State.reset.byte a = unlistedByte a := rfl

end Sys2Proof.Machine
end

