-- ==== Sys2Proof/Laws/Memory.lean ====
section
/-! SUPPORT. The laws of memory: every operation keeps the canonical form, a write is read back, and it leaves every
other address alone. -/

namespace Sys2Proof.Machine

theorem Memory.wfFrom_cons {lo a : Nat} {b : Byte} {m : Memory} :
    Memory.wfFrom lo ((a, b) :: m) = true ↔
      lo ≤ a ∧ a < memSize ∧ b ≠ unlistedByte a ∧ Memory.wfFrom (a + 1) m = true := by
  simp [Memory.wfFrom, and_assoc]

/-- A canonical form from an address is one from any lower address. -/
theorem Memory.wfFrom_mono {lo lo' : Nat} (h : lo' ≤ lo) : ∀ {m : Memory}, m.wfFrom lo = true → m.wfFrom lo' = true
  | [], _ => rfl
  | (a, b) :: m, hw => by
    obtain ⟨h1, h2, h3, h4⟩ := Memory.wfFrom_cons.1 hw
    exact Memory.wfFrom_cons.2 ⟨by omega, h2, h3, h4⟩

/-- Below a canonical memory's first address every read gives the unlisted byte. -/
theorem Memory.read_below {lo a : Nat} (h : a < lo) : ∀ {m : Memory}, m.wfFrom lo = true → m.read a = unlistedByte a
  | [], _ => rfl
  | (c, d) :: m, hw => by
    obtain ⟨h1, -, -, h4⟩ := Memory.wfFrom_cons.1 hw
    have hne : a ≠ c := by omega
    simp only [Memory.read, hne, if_false]
    exact Memory.read_below (by omega) h4

theorem Memory.consCell_wfFrom {lo a : Nat} {b : Byte} {m : Memory} (hlo : lo ≤ a) (ha : a < memSize)
    (h : m.wfFrom (a + 1) = true) : (Memory.consCell a b m).wfFrom lo = true := by
  unfold Memory.consCell
  split
  · exact Memory.wfFrom_mono (by omega) h
  · next hb => exact Memory.wfFrom_cons.2 ⟨hlo, ha, hb, h⟩

/-- A write at a valid address keeps the canonical form. -/
theorem Memory.write_wfFrom {lo a : Nat} {b : Byte} (hlo : lo ≤ a) (ha : a < memSize) :
    ∀ {m : Memory}, m.wfFrom lo = true → (m.write a b).wfFrom lo = true
  | [], _ => Memory.consCell_wfFrom hlo ha rfl
  | (c, d) :: m, hw => by
    obtain ⟨h1, h2, h3, h4⟩ := Memory.wfFrom_cons.1 hw
    unfold Memory.write
    split
    · next hac => exact Memory.consCell_wfFrom hlo ha (Memory.wfFrom_cons.2 ⟨by omega, h2, h3, h4⟩)
    · next hac =>
      split
      · next he => exact Memory.consCell_wfFrom hlo ha (by rw [he]; exact h4)
      · next hne => exact Memory.wfFrom_cons.2 ⟨h1, h2, h3, Memory.write_wfFrom (by omega) ha h4⟩

theorem Memory.write_wf {m : Memory} {a : Nat} (b : Byte) (ha : a < memSize) (h : m.wf = true) :
    (m.write a b).wf = true := Memory.write_wfFrom (Nat.zero_le a) ha h

theorem Memory.consCell_read {a c : Nat} {b : Byte} {m : Memory} (h : m.wfFrom (a + 1) = true) :
    (Memory.consCell a b m).read c = if c = a then b else m.read c := by
  unfold Memory.consCell
  split
  · next hb =>
    split
    · next hc => rw [hc, Memory.read_below (by omega) h, hb]
    · rfl
  · rfl

/-- What a canonical memory reads as after a write: the written byte at its address, every other byte as before. -/
theorem Memory.write_read_from {lo a c : Nat} {b : Byte} (_hlo : lo ≤ a) :
    ∀ {m : Memory}, m.wfFrom lo = true → (m.write a b).read c = if c = a then b else m.read c
  | [], _ => Memory.consCell_read rfl
  | (e, d) :: m, hw => by
    obtain ⟨h1, h2, h3, h4⟩ := Memory.wfFrom_cons.1 hw
    unfold Memory.write
    split
    · next hae => exact Memory.consCell_read (Memory.wfFrom_cons.2 ⟨by omega, h2, h3, h4⟩)
    · next hae =>
      split
      · next he =>
        subst he
        rw [Memory.consCell_read h4]
        by_cases hc : c = a <;> simp [Memory.read, hc]
      · next hne =>
        have ih := Memory.write_read_from (c := c) (b := b) (a := a) (lo := e + 1) (by omega) h4
        by_cases hc : c = e
        · subst hc
          have : c ≠ a := fun h => hne h.symm
          simp [Memory.read, this]
        · simp only [Memory.read, hc, if_false, ih]

theorem Memory.write_read {m : Memory} (a c : Nat) (b : Byte) (h : m.wf = true) :
    (m.write a b).read c = if c = a then b else m.read c := Memory.write_read_from (Nat.zero_le a) h

/-- Loading bytes that fit keeps the canonical form. -/
theorem Memory.load_wf : ∀ (bs : List Byte) {m : Memory} {base : Nat}, m.wf = true → base + bs.length ≤ memSize →
    (m.load base bs).wf = true
  | [], _, _, h, _ => h
  | b :: bs, m, base, h, hb => by
    simp only [List.length_cons] at hb
    exact Memory.load_wf bs (Memory.write_wf b (by omega) h) (by omega)

/-- What a canonical memory reads as after a load: the loaded bytes where they lie, every other byte as before. -/
theorem Memory.load_read : ∀ (bs : List Byte) {m : Memory} {base : Nat} (c : Nat), m.wf = true →
    base + bs.length ≤ memSize →
    (m.load base bs).read c = if h : base ≤ c ∧ c < base + bs.length then bs[c - base]'(by omega) else m.read c
  | [], _, base, c, _, _ => by
    simp [Memory.load]
  | b :: bs, m, base, c, h, hb => by
    simp only [List.length_cons] at hb
    have ih := Memory.load_read bs (m := m.write base b) (base := base + 1) c
      (Memory.write_wf b (by omega) h) (by omega)
    rw [Memory.load, ih, Memory.write_read base c b h]
    by_cases hc : c = base
    · subst hc
      simp
    · by_cases hin : base + 1 ≤ c ∧ c < base + 1 + bs.length
      · have h2 : base ≤ c ∧ c < base + (b :: bs).length := by simp only [List.length_cons]; omega
        rw [dif_pos hin, dif_pos h2]
        obtain ⟨k, rfl⟩ : ∃ k, c = base + 1 + k := ⟨c - (base + 1), by omega⟩
        have e1 : base + 1 + k - base = k + 1 := by omega
        have e2 : base + 1 + k - (base + 1) = k := by omega
        simp only [e1, e2, List.getElem_cons_succ]
      · have h2 : ¬ (base ≤ c ∧ c < base + (b :: bs).length) := by simp only [List.length_cons]; omega
        rw [dif_neg hin, dif_neg h2, if_neg hc]

/-- The reset memory, which lists nothing, is in canonical form. -/
theorem Memory.nil_wf : Memory.wf [] = true := rfl

end Sys2Proof.Machine
end

