-- ==== Sys2Proof/Laws/Step.lean ====
section
/-! SUPPORT. What the primitives, the fetch and the step can do, each said once: a proof about a step cites these and
unfolds neither. -/

namespace Sys2Proof.Machine

/-! ### Memory primitives -/

theorem memRead_ok {a : Nat} {s : State} (h : a ≤ 0xFFF) : memRead a s = .ok (s.byte a) := by
  simp only [memRead, maxAddr, if_neg (Nat.not_lt.2 h)]

theorem memRead_error {a : Nat} {s : State} (h : 0xFFF < a) : memRead a s = .error .outOfBounds := by
  simp only [memRead, maxAddr, h, if_true]

theorem memWrite_ok {a : Nat} {b : Byte} {s : State} (h : a ≤ 0xFFF) :
    memWrite a b s = .ok (s.setMem (s.mem.write a b)) := by
  simp only [memWrite, maxAddr, if_neg (Nat.not_lt.2 h)]

theorem memWrite_error {a : Nat} {b : Byte} {s : State} (h : 0xFFF < a) : memWrite a b s = .error .outOfBounds := by
  simp only [memWrite, maxAddr, h, if_true]

/-! ### Fetch -/

theorem fetch_ok {s : State} (h : s.pc.toNat + 1 ≤ 0xFFF) :
    fetch s = .ok (wordOfBytes (s.byte s.pc.toNat) (s.byte (s.pc.toNat + 1)), s.advancePc) := by
  simp only [fetch, memRead_ok h, memRead_ok (show s.pc.toNat ≤ 0xFFF by omega)]
  rfl

theorem fetch_error {s : State} (h : 0xFFF ≤ s.pc.toNat) : fetch s = .error .outOfBounds := by
  unfold fetch
  rw [memRead_error (show 0xFFF < s.pc.toNat + 1 by omega)]
  by_cases h1 : s.pc.toNat ≤ 0xFFF
  · rw [memRead_ok h1]; rfl
  · rw [memRead_error (by omega)]; rfl

/-- Everything a fetch can do (R101). -/
theorem fetch_cases (s : State) :
    (0xFFF ≤ s.pc.toNat ∧ fetch s = .error .outOfBounds) ∨
    (s.pc.toNat + 1 ≤ 0xFFF ∧
      fetch s = .ok (wordOfBytes (s.byte s.pc.toNat) (s.byte (s.pc.toNat + 1)), s.advancePc)) := by
  rcases Nat.lt_or_ge s.pc.toNat 0xFFF with h | h
  · exact .inr ⟨h, fetch_ok h⟩
  · exact .inl ⟨h, fetch_error h⟩

/-- Splitting a word into its bytes and putting them together again gives the word (R56). -/
theorem wordOfBytes_split (w : Word) : wordOfBytes (w.extractLsb' 8 8) (w.extractLsb' 0 8) = w := by
  apply BitVec.eq_of_toNat_eq
  have hw := w.isLt
  simp only [wordOfBytes, BitVec.toNat_append, BitVec.extractLsb'_toNat, Nat.shiftRight_zero]
  rw [Nat.shiftLeft_eq, ← Nat.shiftLeft_eq, ← Nat.shiftLeft_add_eq_or_of_lt (by omega), Nat.shiftLeft_eq,
    Nat.shiftRight_eq_div_pow]
  omega

/-- The value of a word is the high byte times 256 plus the low byte (R56). -/
theorem wordOfBytes_toNat (hi lo : Byte) : (wordOfBytes hi lo).toNat = hi.toNat * 256 + lo.toNat := by
  have := lo.isLt
  simp only [wordOfBytes, BitVec.toNat_append]
  rw [← Nat.shiftLeft_add_eq_or_of_lt (by omega), Nat.shiftLeft_eq]

/-- The high byte of a word of two bytes (R56). -/
theorem extract_hi (hi lo : Byte) : (wordOfBytes hi lo).extractLsb' 8 8 = hi := by
  apply BitVec.eq_of_toNat_eq
  have := hi.isLt; have := lo.isLt
  rw [BitVec.extractLsb'_toNat, wordOfBytes_toNat, Nat.shiftRight_eq_div_pow]
  omega

/-- The low byte of a word of two bytes (R56). -/
theorem extract_lo (hi lo : Byte) : (wordOfBytes hi lo).extractLsb' 0 8 = lo := by
  apply BitVec.eq_of_toNat_eq
  have := hi.isLt; have := lo.isLt
  rw [BitVec.extractLsb'_toNat, wordOfBytes_toNat, Nat.shiftRight_zero]
  omega

/-- A fetch where the word at `PC` is `w`. -/
theorem fetch_of_wordAtPc {s : State} {w : Word} (h : WordAtPc s w) : fetch s = .ok (w, s.advancePc) := by
  rw [fetch_ok h.1, h.2.1, h.2.2, wordOfBytes_split]

/-! ### Effects and meanings -/

/-- The meaning that `exec` gives an instruction is its effect, as the host's interface takes it. -/
theorem exec_eq_answer_effect (i : Instr) (s : State) : exec i s = (effect i s).answer := by cases i <;> rfl

@[simp] theorem complete_state (s : State) : (complete s).state = s := rfl
@[simp] theorem complete_outcome (s : State) : (complete s).outcome = .ok := rfl
@[simp] theorem raiseInExecute_state (e : Fault) (s : State) : (raiseInExecute e s).state = s := rfl
@[simp] theorem raiseInExecute_outcome (e : Fault) (s : State) : (raiseInExecute e s).outcome = .error e := rfl
@[simp] theorem raiseInFetch_state (e : Fault) (s : State) : (raiseInFetch e s).state = s := rfl
@[simp] theorem raiseInFetch_outcome (e : Fault) (s : State) : (raiseInFetch e s).outcome = .error e := rfl

theorem Result.answer_inj {r : Result} {t : State} (h : r.answer = .next t) : r.state = t := by
  cases h; rfl

/-! ### The step -/

/-- The step of the host's interface is the step of R42 with its outcome left out. -/
theorem step_eq_answer_stepResult (s : State) : step s = (stepResult s).answer := by
  unfold step stepResult
  cases fetch s with
  | error e => rfl
  | ok p =>
    obtain ⟨w, s1⟩ := p
    dsimp only
    cases decodeWord w with
    | ok i => exact exec_eq_answer_effect i s1
    | error e => rfl

/-- Everything a step can do, with the outcome it returns (R100, R101, R111). -/
theorem stepResult_cases (s : State) :
    (0xFFF ≤ s.pc.toNat ∧ stepResult s = raiseInFetch .outOfBounds s) ∨
    (∃ w, WordAtPc s w ∧
      ((∃ i, decodeWord w = .ok i ∧ stepResult s = effect i s.advancePc) ∨
       ((∃ e, decodeWord w = .error e) ∧ stepResult s = raiseInExecute .unknownInstruction s.advancePc))) := by
  rcases fetch_cases s with ⟨hp, hf⟩ | ⟨hp, hf⟩
  · exact .inl ⟨hp, by simp only [stepResult, hf]⟩
  · refine .inr ⟨wordOfBytes (s.byte s.pc.toNat) (s.byte (s.pc.toNat + 1)), ⟨hp, ?_, ?_⟩, ?_⟩
    · exact (extract_hi _ _).symm
    · exact (extract_lo _ _).symm
    · cases hd : decodeWord (wordOfBytes (s.byte s.pc.toNat) (s.byte (s.pc.toNat + 1))) with
      | ok i => exact .inl ⟨i, rfl, by simp only [stepResult, hf, hd]⟩
      | error e => exact .inr ⟨⟨e, rfl⟩, by simp only [stepResult, hf, hd]; rfl⟩

theorem stepResult_of_decode {s : State} {w : Word} {i : Instr} (h : WordAtPc s w) (hd : decodeWord w = .ok i) :
    stepResult s = effect i s.advancePc := by
  simp only [stepResult, fetch_of_wordAtPc h, hd]

theorem stepResult_of_unknown {s : State} {w : Word} {e : DecodeRefusal} (h : WordAtPc s w)
    (hd : decodeWord w = .error e) : stepResult s = raiseInExecute .unknownInstruction s.advancePc := by
  simp only [stepResult, fetch_of_wordAtPc h, hd]; rfl

theorem stepResult_of_pc_high {s : State} (h : 0xFFF ≤ s.pc.toNat) :
    stepResult s = raiseInFetch .outOfBounds s := by
  simp only [stepResult, fetch_error h]

/-- What one step of the host's interface answers, if it is a next state. -/
theorem step_next {s t : State} (h : step s = .next t) : t = (stepResult s).state := by
  rw [step_eq_answer_stepResult] at h
  exact (Result.answer_inj h).symm

end Sys2Proof.Machine
end

