-- ==== Sys2Proof/Laws/Display.lean ====
section
/-! SUPPORT. The laws of the display cells and of the draw's primitives. -/

namespace Sys2Proof.Machine

/-- How a display reads after one cell is replaced. -/
theorem Display.setCell_cell (d : Display) {x y : Nat} (hx : x < 64) (hy : y < 32) (b : Bool) (px py : Nat) :
    (d.setCell x y b).cell px py = if px = x ∧ py = y then b else d.cell px py := by
  have hxy : x < dispW ∧ y < dispH := ⟨hx, hy⟩
  unfold Display.setCell
  rw [dif_pos hxy]
  unfold Display.cell
  by_cases hp : px < dispW ∧ py < dispH
  · simp only [hp, and_self, dite_true]
    rw [Vector.getElem_set]
    by_cases h1 : x = px
    · subst h1
      simp only [if_true, true_and]
      rw [Vector.getElem_set]
      by_cases h2 : y = py
      · simp [h2]
      · simp [h2, Ne.symm h2]
    · have : ¬ (px = x ∧ py = y) := fun e => h1 e.1.symm
      simp [h1, this]
  · have : ¬ (px = x ∧ py = y) := fun e => hp (e.1 ▸ e.2 ▸ hxy)
    simp [hp, this]

@[simp] theorem Display.blank_cell (px py : Nat) : Display.blank.cell px py = false := by
  unfold Display.cell Display.blank
  split <;> simp

/-- Off the grid every display reads as off. -/
theorem Display.cell_off_grid (d : Display) {px py : Nat} (h : ¬ (px < 64 ∧ py < 32)) : d.cell px py = false := by
  unfold Display.cell
  exact dif_neg h

/-- Two displays that read the same on the grid are one display. -/
theorem Display.ext_cell {d e : Display} (h : ∀ px py, px < 64 → py < 32 → d.cell px py = e.cell px py) : d = e := by
  apply Vector.ext
  intro px hpx
  apply Vector.ext
  intro py hpy
  have := h px py hpx hpy
  unfold Display.cell at this
  rwa [dif_pos ⟨hpx, hpy⟩, dif_pos ⟨hpx, hpy⟩] at this

@[simp] theorem toggle_fst (x y : Nat) (d : Display) : (toggle x y d).1 = d.cell x y := rfl
@[simp] theorem toggle_snd (x y : Nat) (d : Display) : (toggle x y d).2 = d.setCell x y (!d.cell x y) := rfl

theorem drawPixel_clear {b : Byte} {c : Nat} (h : spriteBit b c = false) (x0 y : Nat) (k : Canvas) :
    drawPixel b x0 y k c = k := by
  simp [drawPixel, h]

theorem drawPixel_set {b : Byte} {c : Nat} (h : spriteBit b c = true) (x0 y : Nat) (k : Canvas) :
    drawPixel b x0 y k c =
      { disp := k.disp.setCell (x0 + c) y (!k.disp.cell (x0 + c) y),
        vf := flagAfterToggle (k.disp.cell (x0 + c) y) k.vf } := by
  simp [drawPixel, h]

@[simp] theorem drawRow_zero (b : Byte) (x0 y : Nat) (k : Canvas) : drawRow b x0 y 0 k = k := rfl

theorem drawRow_succ (b : Byte) (x0 y cols : Nat) (k : Canvas) :
    drawRow b x0 y (cols + 1) k = drawPixel b x0 y (drawRow b x0 y cols k) cols := by
  simp [drawRow, List.range_succ]

@[simp] theorem drawRows_zero (sprite : Nat → Byte) (x0 y0 cols : Nat) (k : Canvas) :
    drawRows sprite x0 y0 0 cols k = k := rfl

theorem drawRows_succ (sprite : Nat → Byte) (x0 y0 rows cols : Nat) (k : Canvas) :
    drawRows sprite x0 y0 (rows + 1) cols k =
      drawRow (sprite rows) x0 (y0 + rows) cols (drawRows sprite x0 y0 rows cols k) := by
  simp [drawRows, List.range_succ]

open Classical in
/-- How a display reads after one sprite row: the cells under its set bits are flipped. -/
theorem drawRow_cell (b : Byte) (x0 y : Nat) (hy : y < 32) (k : Canvas) (px py : Nat) : ∀ cols, x0 + cols ≤ 64 →
    (drawRow b x0 y cols k).disp.cell px py =
      if ∃ c < cols, px = x0 + c ∧ py = y ∧ spriteBit b c = true then !k.disp.cell px py else k.disp.cell px py
  | 0, _ => by simp
  | cols + 1, h => by
    have ih := fun _ : Unit => drawRow_cell b x0 y hy k px py cols (by omega)
    rw [drawRow_succ]
    by_cases hb : spriteBit b cols = true
    · rw [drawPixel_set hb]
      simp only
      rw [Display.setCell_cell _ (by omega) hy]
      by_cases hp : px = x0 + cols ∧ py = y
      · obtain ⟨rfl, rfl⟩ := hp
        rw [if_pos ⟨rfl, rfl⟩, ih (), if_neg, if_pos]
        · exact ⟨cols, by omega, rfl, rfl, hb⟩
        · rintro ⟨c, hc, h1, -⟩; omega
      · rw [if_neg hp, ih ()]
        congr 1
        apply propext
        constructor
        · rintro ⟨c, hc, h1⟩; exact ⟨c, by omega, h1⟩
        · rintro ⟨c, hc, h1, h2, h3⟩
          refine ⟨c, ?_, h1, h2, h3⟩
          rcases Nat.lt_or_ge c cols with h | h
          · exact h
          · exfalso; apply hp; exact ⟨by omega, h2⟩
    · rw [drawPixel_clear (by simpa using hb), ih ()]
      congr 1
      apply propext
      constructor
      · rintro ⟨c, hc, h1⟩; exact ⟨c, by omega, h1⟩
      · rintro ⟨c, hc, h1, h2, h3⟩
        refine ⟨c, ?_, h1, h2, h3⟩
        rcases Nat.lt_or_ge c cols with h | h
        · exact h
        · have : c = cols := by omega
          subst this; exact absurd h3 hb

open Classical in
/-- VF after one sprite row: 1 when some set bit met a cell that was on. -/
theorem drawRow_vf (b : Byte) (x0 y : Nat) (hy : y < 32) (k : Canvas) : ∀ cols, x0 + cols ≤ 64 →
    (drawRow b x0 y cols k).vf =
      if ∃ c < cols, spriteBit b c = true ∧ k.disp.cell (x0 + c) y = true then 1 else k.vf
  | 0, _ => by simp
  | cols + 1, h => by
    have ih := drawRow_vf b x0 y hy k cols (by omega)
    rw [drawRow_succ]
    have hc : (drawRow b x0 y cols k).disp.cell (x0 + cols) y = k.disp.cell (x0 + cols) y := by
      rw [drawRow_cell b x0 y hy k _ _ cols (by omega), if_neg]
      rintro ⟨c, hc, h1, -⟩; omega
    by_cases hb : spriteBit b cols = true
    · rw [drawPixel_set hb]
      simp only [hc, flagAfterToggle]
      by_cases hk : k.disp.cell (x0 + cols) y = true
      · rw [if_pos hk, if_pos ⟨cols, by omega, hb, hk⟩]
      · rw [if_neg hk, ih]
        congr 1
        apply propext
        constructor
        · rintro ⟨c, hc, h1⟩; exact ⟨c, by omega, h1⟩
        · rintro ⟨c, hc, h2, h3⟩
          refine ⟨c, ?_, h2, h3⟩
          rcases Nat.lt_or_ge c cols with h | h
          · exact h
          · have : c = cols := by omega
            subst this; exact absurd h3 hk
    · rw [drawPixel_clear (by simpa using hb), ih]
      congr 1
      apply propext
      constructor
      · rintro ⟨c, hc, h1⟩; exact ⟨c, by omega, h1⟩
      · rintro ⟨c, hc, h2, h3⟩
        refine ⟨c, ?_, h2, h3⟩
        rcases Nat.lt_or_ge c cols with h | h
        · exact h
        · have : c = cols := by omega
          subst this; exact absurd h2 hb

/-- Some row and column of a sprite, with its bit set, land on the cell `(px, py)`. -/
def SpriteHit (sp : Nat → Byte) (x0 y0 rows cols px py : Nat) : Prop :=
  ∃ r < rows, ∃ c < cols, px = x0 + c ∧ py = y0 + r ∧ spriteBit (sp r) c = true

open Classical in
/-- How a display reads after the row loop: the cells under set bits are flipped, every other cell is as before. -/
theorem drawRows_cell (sp : Nat → Byte) (x0 y0 cols : Nat) (hx : x0 + cols ≤ 64) (k : Canvas) (px py : Nat) : ∀ rows, y0 + rows ≤ 32 →
    (drawRows sp x0 y0 rows cols k).disp.cell px py =
      if SpriteHit sp x0 y0 rows cols px py then !k.disp.cell px py else k.disp.cell px py
  | 0, _ => by simp [SpriteHit]
  | rows + 1, h => by
    have ih := drawRows_cell sp x0 y0 cols hx k px py rows (by omega)
    rw [drawRows_succ, drawRow_cell _ _ _ (by omega) _ _ _ _ hx, ih]
    by_cases hp : ∃ c < cols, px = x0 + c ∧ py = y0 + rows ∧ spriteBit (sp rows) c = true
    · have hn : ¬ SpriteHit sp x0 y0 rows cols px py := by
        obtain ⟨_, _, _, h2, _⟩ := hp
        rintro ⟨r, hr, c, hc, -, h4, -⟩; omega
      rw [if_pos hp, if_neg hn, if_pos]
      obtain ⟨c, hc, h1⟩ := hp
      exact ⟨rows, by omega, c, hc, h1⟩
    · rw [if_neg hp]
      congr 1
      apply propext
      constructor
      · rintro ⟨r, hr, h1⟩; exact ⟨r, by omega, h1⟩
      · rintro ⟨r, hr, h1⟩
        rcases Nat.lt_or_ge r rows with h | h
        · exact ⟨r, h, h1⟩
        · have : r = rows := by omega
          subst this
          exact absurd h1 hp

open Classical in
/-- VF after the row loop: 1 when some set bit met a cell that was on before the loop. -/
theorem drawRows_vf (sp : Nat → Byte) (x0 y0 cols : Nat) (hx : x0 + cols ≤ 64) (k : Canvas) : ∀ rows, y0 + rows ≤ 32 →
    (drawRows sp x0 y0 rows cols k).vf =
      if ∃ px py, SpriteHit sp x0 y0 rows cols px py ∧ k.disp.cell px py = true then 1 else k.vf
  | 0, _ => by simp [SpriteHit]
  | rows + 1, h => by
    have ih := drawRows_vf sp x0 y0 cols hx k rows (by omega)
    rw [drawRows_succ, drawRow_vf _ _ _ (by omega) _ _ hx, ih]
    have hc : ∀ c, (drawRows sp x0 y0 rows cols k).disp.cell (x0 + c) (y0 + rows) = k.disp.cell (x0 + c) (y0 + rows) := by
      intro c
      rw [drawRows_cell sp x0 y0 cols hx k _ _ rows (by omega), if_neg]
      rintro ⟨r, hr, c, hc, -, h4, -⟩; omega
    simp only [hc]
    by_cases hp : ∃ c < cols, spriteBit (sp rows) c = true ∧ k.disp.cell (x0 + c) (y0 + rows) = true
    · rw [if_pos hp, if_pos]
      obtain ⟨c, hc, h1, h2⟩ := hp
      exact ⟨_, _, ⟨rows, by omega, c, hc, rfl, rfl, h1⟩, h2⟩
    · rw [if_neg hp]
      congr 1
      apply propext
      constructor
      · rintro ⟨px, py, ⟨r, hr, h1⟩, h2⟩; exact ⟨px, py, ⟨r, by omega, h1⟩, h2⟩
      · rintro ⟨px, py, ⟨r, hr, c, hc', rfl, rfl, h1⟩, h2⟩
        rcases Nat.lt_or_ge r rows with h | h
        · exact ⟨_, _, ⟨r, h, c, hc', rfl, rfl, h1⟩, h2⟩
        · have : r = rows := by omega
          subst this
          exact absurd ⟨c, hc', h1, h2⟩ hp

/-- The range check of a draw: every drawn row's byte lies in memory (R145). -/
theorem spriteInRange_iff (base rows : Nat) : spriteInRange base rows = true ↔ ∀ r, r < rows → base + r ≤ 0xFFF := by
  simp [spriteInRange, maxAddr]

/-- Everything a draw can do (R146): it writes the display and VF, or, when a row lies beyond memory, nothing. -/
theorem drwEffect_cases (x y : Fin 16) (n : Nat) (s : State) :
    (SpriteReadable s y n ∧ ∃ k,
      k = drawRows (spriteRow s) (originX (s.readV x)) (originY (s.readV y))
        (rowsDrawn n (originY (s.readV y))) (colsDrawn (originX (s.readV x))) ⟨s.disp, noCollision⟩ ∧
      drwEffect x y n s = complete ((s.setDisp k.disp).setV flagReg k.vf)) ∨
    (¬ SpriteReadable s y n ∧ drwEffect x y n s = raiseInExecute .outOfBounds s) := by
  by_cases h : SpriteReadable s y n
  · refine .inl ⟨h, _, rfl, ?_⟩
    have : spriteInRange s.i.toNat (rowsDrawn n (originY (s.readV y))) = true := (spriteInRange_iff _ _).2 h
    simp only [drwEffect, this, if_true]
  · refine .inr ⟨h, ?_⟩
    have : spriteInRange s.i.toNat (rowsDrawn n (originY (s.readV y))) ≠ true :=
      fun e => h ((spriteInRange_iff _ _).1 e)
    simp only [drwEffect, this, if_false, Bool.false_eq_true]

end Sys2Proof.Machine
end

