-- ==== Sys2Proof/Laws/Driver.lean ====
section
/-! SUPPORT. The interface operations: what each leaves, and the one induction over a driver's operations. -/

namespace Sys2Proof.Machine

/-! ### construct -/

/-- Everything `construct` can answer (R190, R191). -/
theorem construct_cases (cfg : Config) (program : List Byte) :
    (3584 < program.length ∧ construct cfg program = .error .programTooLarge) ∨
    (program.length ≤ 3584 ∧
      construct cfg program = .ok (State.reset.setMem (initialMemory cfg.font program))) := by
  by_cases h : program.length > maxProgram
  · exact .inl ⟨h, by simp only [construct, h, if_true]⟩
  · exact .inr ⟨Nat.le_of_not_lt h, by simp only [construct, h, if_false]⟩

theorem initialFont_wf (font : Vector Byte fontSize) : (Memory.load [] fontBase font.toList).wf = true :=
  Memory.load_wf _ Memory.nil_wf (by rw [Vector.length_toList]; decide)

theorem initialMemory_wf (font : Vector Byte fontSize) {program : List Byte} (h : program.length ≤ 3584) :
    (initialMemory font program).wf = true :=
  Memory.load_wf _ (initialFont_wf font) (by simp only [programBase, memSize]; omega)

/-! ### The pure reads and the small writes -/

@[simp] theorem tick_mem (s : State) : (tick s).mem = s.mem := rfl
@[simp] theorem tick_v (s : State) : (tick s).v = s.v := rfl
@[simp] theorem tick_i (s : State) : (tick s).i = s.i := rfl
@[simp] theorem tick_pc (s : State) : (tick s).pc = s.pc := rfl
@[simp] theorem tick_dt (s : State) : (tick s).dt = countDown s.dt := rfl
@[simp] theorem tick_st (s : State) : (tick s).st = countDown s.st := rfl
@[simp] theorem tick_stack (s : State) : (tick s).stack = s.stack := rfl
@[simp] theorem tick_disp (s : State) : (tick s).disp = s.disp := rfl
@[simp] theorem tick_keys (s : State) : (tick s).keys = s.keys := rfl

@[simp] theorem setKeys_mem (m : Word) (s : State) : (setKeys m s).mem = s.mem := rfl
@[simp] theorem setKeys_v (m : Word) (s : State) : (setKeys m s).v = s.v := rfl
@[simp] theorem setKeys_i (m : Word) (s : State) : (setKeys m s).i = s.i := rfl
@[simp] theorem setKeys_pc (m : Word) (s : State) : (setKeys m s).pc = s.pc := rfl
@[simp] theorem setKeys_dt (m : Word) (s : State) : (setKeys m s).dt = s.dt := rfl
@[simp] theorem setKeys_st (m : Word) (s : State) : (setKeys m s).st = s.st := rfl
@[simp] theorem setKeys_stack (m : Word) (s : State) : (setKeys m s).stack = s.stack := rfl
@[simp] theorem setKeys_disp (m : Word) (s : State) : (setKeys m s).disp = s.disp := rfl
@[simp] theorem setKeys_keys (m : Word) (s : State) : (setKeys m s).keys = m := rfl

/-! ### Sequences of operations -/

@[simp] theorem runOps_nil (s : State) : runOps [] s = ([], s) := rfl

theorem runOps_cons (op : DriverOp) (ops : List DriverOp) (s : State) :
    runOps (op :: ops) s = ((perform op s).1 :: (runOps ops (perform op s).2).1, (runOps ops (perform op s).2).2) := rfl

/-- Operations take effect one at a time, in order (R60). -/
theorem runOps_append (ops ops' : List DriverOp) (s : State) :
    (runOps (ops ++ ops') s).2 = (runOps ops' (runOps ops s).2).2 := by
  induction ops generalizing s with
  | nil => rfl
  | cons op ops ih => exact ih _

/-- An infinite schedule, cut after `n` operations, is the finite sequence of those operations. -/
theorem stateAfter_eq_runOps (schedule : Nat → DriverOp) (s : State) (n : Nat) :
    stateAfter schedule s n = (runOps ((List.range n).map schedule) s).2 := by
  induction n with
  | zero => rfl
  | succ n ih => rw [List.range_succ, List.map_append, runOps_append, ← ih]; rfl

/-- A property that every operation keeps holds after every sequence of them. -/
theorem runOps_keeps {P : State → Prop} (keep : ∀ op s, P s → P (perform op s).2) (ops : List DriverOp) {s : State}
    (h : P s) : P (runOps ops s).2 := by
  induction ops generalizing s with
  | nil => exact h
  | cons op ops ih => exact ih (keep op s h)

/-- A property that holds of every constructed machine and that every operation keeps holds of every reachable state. -/
theorem Reachable.of_keeps {P : State → Prop} {cfg : Config}
    (start : ∀ program m, construct cfg program = .ok m → P m) (keep : ∀ op s, P s → P (perform op s).2)
    {s : State} (h : Reachable cfg s) : P s := by
  obtain ⟨program, m, ops, hc, rfl⟩ := h
  exact runOps_keeps keep ops (start program m hc)

end Sys2Proof.Machine
end

