-- ==== Sys2Proof/Laws/Encoding.lean ====
section
/-! SUPPORT. The fields of a word, and the word of an instruction, as arithmetic on the word's value. -/

namespace Sys2Proof

/-! ### Fields (R71) -/

theorem opField_toNat (w : Word) : (opField w).toNat = w.toNat / 4096 := by
  have := w.isLt
  simp only [opField, BitVec.extractLsb'_toNat, Nat.shiftRight_eq_div_pow]; omega

theorem opField_eq_iff (w : Word) (k : Nat) (hk : k < 16) : opField w = BitVec.ofNat 4 k ↔ w.toNat / 4096 = k := by
  rw [← BitVec.toNat_inj, opField_toNat, BitVec.toNat_ofNat]; omega

theorem xField_eq (w : Word) : xField w = Fin.ofNat 16 (w.toNat / 256 % 16) := by
  apply Fin.ext
  show (w.extractLsb' 8 4).toNat = _
  simp [BitVec.extractLsb'_toNat, Nat.shiftRight_eq_div_pow]

theorem yField_eq (w : Word) : yField w = Fin.ofNat 16 (w.toNat / 16 % 16) := by
  apply Fin.ext
  show (w.extractLsb' 4 4).toNat = _
  simp [BitVec.extractLsb'_toNat, Nat.shiftRight_eq_div_pow]

theorem nField_eq (w : Word) : nField w = w.toNat % 16 := by
  simp [nField, BitVec.extractLsb'_toNat]

theorem nnField_eq (w : Word) : nnField w = BitVec.ofNat 8 (w.toNat % 256) := by
  apply BitVec.eq_of_toNat_eq; simp [nnField, BitVec.extractLsb'_toNat]

theorem nnnField_eq (w : Word) : nnnField w = BitVec.ofNat 12 (w.toNat % 4096) := by
  apply BitVec.eq_of_toNat_eq; simp [nnnField, BitVec.extractLsb'_toNat]

/-! ### Words put together from fields -/

theorem append_4_12_toNat (op : BitVec 4) (l : BitVec 12) : (op ++ l : Word).toNat = op.toNat * 4096 + l.toNat := by
  have := l.isLt
  rw [BitVec.toNat_append, ← Nat.shiftLeft_add_eq_or_of_lt (by omega), Nat.shiftLeft_eq]

theorem append_4_8_toNat (op : BitVec 4) (l : BitVec 8) : (op ++ l : BitVec 12).toNat = op.toNat * 256 + l.toNat := by
  have := l.isLt
  rw [BitVec.toNat_append, ← Nat.shiftLeft_add_eq_or_of_lt (by omega), Nat.shiftLeft_eq]

theorem append_4_4_toNat (op : BitVec 4) (l : BitVec 4) : (op ++ l : BitVec 8).toNat = op.toNat * 16 + l.toNat := by
  have := l.isLt
  rw [BitVec.toNat_append, ← Nat.shiftLeft_add_eq_or_of_lt (by omega), Nat.shiftLeft_eq]

/-- The value of every encoded word (R73). -/
theorem encode_toNat (i : Instr) : (encode i).toNat = match i with
  | .cls => 0xE0
  | .jp nnn => 0x1000 + nnn.toNat
  | .ldVxNn x nn => 0x6000 + 256 * x.val + nn.toNat
  | .addVxNn x nn => 0x7000 + 256 * x.val + nn.toNat
  | .ldINnn nnn => 0xA000 + nnn.toNat
  | .drw x y n => 0xD000 + 256 * x.val + 16 * y.val + n % 16 := by
  have hx : ∀ x : Fin 16, (regBits x).toNat = x.val := fun x => by
    simp [regBits]
  cases i with
  | cls => rfl
  | jp nnn => simp only [encode]; rw [append_4_12_toNat]; rfl
  | ldVxNn x nn => simp only [encode]; rw [append_4_12_toNat, append_4_8_toNat, hx]; simp; omega
  | addVxNn x nn => simp only [encode]; rw [append_4_12_toNat, append_4_8_toNat, hx]; simp; omega
  | ldINnn nnn => simp only [encode]; rw [append_4_12_toNat]; rfl
  | drw x y n => simp only [encode]; rw [append_4_12_toNat, append_4_8_toNat, append_4_4_toNat, hx, hx]; simp; omega

end Sys2Proof
end

