-- ==== Sys2Proof/Laws/PerInstr.lean ====
section
/-! SUPPORT. One family of statements about every instruction as syntax, one lemma per constructor: the encoder puts
each instruction's word on that instruction's own row of the opcode table (spec/30_encoding.md R73). -/

namespace Sys2Proof.Laws

/-- A word whose top four bits are fixed, whatever the other twelve are. -/
theorem selects_of_top (op : BitVec 4) (low : BitVec 12) (p : Word) (hp : p = op ++ 0#12) :
    (OpcodeRow.mk p 0xF000).selects (op ++ low) = true := by
  subst hp
  have hm : ∀ k : Fin 16, (0xF000#16).getLsbD k.val = decide (12 ≤ k.val) := by decide
  rw [OpcodeRow.selects, beq_iff_eq]
  show (op ++ low : Word) &&& 0xF000#16 = op ++ 0#12
  apply BitVec.eq_of_getLsbD_eq
  intro k hk
  rw [BitVec.getLsbD_and, hm ⟨k, hk⟩, BitVec.getLsbD_append, BitVec.getLsbD_append]
  by_cases h : k < 12
  · simp [h, Nat.not_le.2 h]
  · simp [h, Nat.le_of_not_lt h]

namespace EncodeSelectsOwnRow

/-- The encoded word of an instruction selects the instruction's row, and that row stands in the opcode table. -/
def Statement (i : Instr) : Prop := (rowOf i).selects (encode i) = true ∧ rowOf i ∈ opcodeTable

theorem cls : Statement .cls := ⟨by decide, by decide⟩

theorem jp (nnn : BitVec 12) : Statement (.jp nnn) :=
  ⟨selects_of_top 0x1#4 nnn 0x1000 (by decide), by show (⟨0x1000, 0xF000⟩ : OpcodeRow) ∈ opcodeTable; decide⟩

theorem ldVxNn (x : Fin 16) (nn : Byte) : Statement (.ldVxNn x nn) := by
  refine ⟨?_, by show (⟨0x6000, 0xF000⟩ : OpcodeRow) ∈ opcodeTable; decide⟩
  exact selects_of_top 0x6#4 (regBits x ++ nn) 0x6000 (by decide)

theorem addVxNn (x : Fin 16) (nn : Byte) : Statement (.addVxNn x nn) := by
  refine ⟨?_, by show (⟨0x7000, 0xF000⟩ : OpcodeRow) ∈ opcodeTable; decide⟩
  exact selects_of_top 0x7#4 (regBits x ++ nn) 0x7000 (by decide)

theorem ldINnn (nnn : BitVec 12) : Statement (.ldINnn nnn) :=
  ⟨selects_of_top 0xA#4 nnn 0xA000 (by decide), by show (⟨0xA000, 0xF000⟩ : OpcodeRow) ∈ opcodeTable; decide⟩

theorem drw (x y : Fin 16) (n : Nat) : Statement (.drw x y n) := by
  refine ⟨?_, by show (⟨0xD000, 0xF000⟩ : OpcodeRow) ∈ opcodeTable; decide⟩
  exact selects_of_top 0xD#4 (regBits x ++ (regBits y ++ BitVec.ofNat 4 n)) 0xD000 (by decide)

end EncodeSelectsOwnRow

end Sys2Proof.Laws
end

