-- ==== Sys2Proof/Machine/Assembler.lean ====
section
/-! DEFINITION. The assembler syntax of spec/30_encoding.md R79: the spelling of an instruction, and the bytes of a
sequence of lines. It has no semantic effect (decision D21); the encodings of Decode.lean are the normative form. -/

namespace Sys2Proof.Machine

/-- One upper-case hex digit. -/
def hexDigit (d : Nat) : Char := if d < 10 then Char.ofNat (48 + d) else Char.ofNat (55 + d)

/-- `digits` hex digits of a number, most significant first. -/
def hexDigits : Nat → Nat → List Char
  | 0, _ => []
  | digits + 1, v => hexDigits digits (v / 16) ++ [hexDigit (v % 16)]

/-- A number in hex with `0x` before it (R79). -/
def hexText (digits v : Nat) : String := "0x" ++ String.ofList (hexDigits digits v)

/-- `V0` to `VF` (R79). -/
def regText (x : Fin 16) : String := "V" ++ String.ofList (hexDigits 1 x.val)

/-- An instruction in the spelling of R79. -/
def asmText : Instr → String
  | .cls => "CLS"
  | .jp nnn => "JP " ++ hexText 3 nnn.toNat
  | .ldVxNn x nn => "LD " ++ regText x ++ ", " ++ hexText 2 nn.toNat
  | .addVxNn x nn => "ADD " ++ regText x ++ ", " ++ hexText 2 nn.toNat
  | .ldINnn nnn => "LD I, " ++ hexText 3 nnn.toNat
  | .drw x y n => "DRW " ++ regText x ++ ", " ++ regText y ++ ", " ++ hexText 1 n

/-- One line of R79. A label's name is held as a number; only whether two names are equal matters. -/
inductive AsmLine where
  /-- `name:`, which stands for the address of what follows it. -/
  | label (name : Nat)
  /-- An instruction with numeric operands. -/
  | ins (i : Instr)
  /-- `JP name`. -/
  | jpLabel (name : Nat)
  /-- `LD I, name`. -/
  | ldILabel (name : Nat)
  /-- `DB 0xHH`: one byte. -/
  | db (b : Byte)
  /-- `DW 0xHHHH`: one big-endian word. -/
  | dw (w : Word)
  deriving DecidableEq, Repr

/-- How many bytes a line places. -/
def AsmLine.size : AsmLine → Nat
  | .label _ => 0
  | .ins _ => 2
  | .jpLabel _ => 2
  | .ldILabel _ => 2
  | .db _ => 1
  | .dw _ => 2

/-- The address that a label stands for when the lines start at address `a`: where its first line stands. -/
def labelAddr (name : Nat) : Nat → List AsmLine → Option Nat
  | _, [] => none
  | a, l :: ls => if l = .label name then some a else labelAddr name (a + l.size) ls

/-- The bytes of a line, `addrOf` giving the labels' addresses; none for a label that has no address. -/
def AsmLine.bytes (addrOf : Nat → Option Nat) : AsmLine → Option (List Byte)
  | .label _ => some []
  | .ins i => some (bytesOfWord (encode i))
  | .jpLabel name => (addrOf name).map fun a => bytesOfWord (encode (.jp (BitVec.ofNat 12 a)))
  | .ldILabel name => (addrOf name).map fun a => bytesOfWord (encode (.ldINnn (BitVec.ofNat 12 a)))
  | .db b => some [b]
  | .dw w => some (bytesOfWord w)

/-- The bytes of consecutive lines. -/
def linesBytes (addrOf : Nat → Option Nat) : List AsmLine → Option (List Byte)
  | [] => some []
  | l :: ls =>
    match l.bytes addrOf, linesBytes addrOf ls with
    | some bs, some rest => some (bs ++ rest)
    | _, _ => none

/-- A program image, to be loaded at 0x200 (R52, R191). -/
def assemble (lines : List AsmLine) : Option (List Byte) :=
  linesBytes (fun name => labelAddr name programBase lines) lines

end Sys2Proof.Machine
end

