-- ==== Sys2Proof/Tests/Slice0.lean ====
section
/-! SUPPORT. The model's own tests, and a witness for the hypotheses of each statement. Every expected value is from
spec/95_test_vectors.md (the vector is named) or worked by hand from the rule that is named. -/

namespace Sys2Proof.Tests

open Sys2Proof Sys2Proof.Machine

/-! ### WellFormed: the one check refuses a row count that does not fit its four bits (R72) -/

theorem test_wellFormed_refuses_sixteen_rows : (Instr.drw 0 0 16).wellFormed = false := by decide
theorem test_wellFormed_takes_fifteen_rows : (Instr.drw 15 15 15).wellFormed = true := by decide

/-! ### Decode: words written out bit by bit from R73's patterns -/

theorem test_decode_cls : decodeWord 0b0000000011100000#16 = .ok .cls := by decide
theorem test_decode_jp : decodeWord 0b0001001000110100#16 = .ok (.jp 0x234) := by decide
theorem test_decode_ldVxNn : decodeWord 0b0110001110100101#16 = .ok (.ldVxNn 3 0xA5) := by decide
theorem test_decode_addVxNn : decodeWord 0b0111111100000011#16 = .ok (.addVxNn 15 0x03) := by decide
theorem test_decode_ldINnn : decodeWord 0b1010001000001101#16 = .ok (.ldINnn 0x20D) := by decide
theorem test_decode_drw : decodeWord 0b1101000111110010#16 = .ok (.drw 1 15 2) := by decide
theorem test_decode_near_cls : decodeWord 0x00E1#16 = .error (.unknown 0x00E1) := by decide
theorem test_decode_call : decodeWord 0x2ABC#16 = .error (.unknown 0x2ABC) := by decide
theorem test_decode_one_byte : decodeBytes [0x60] = .error .truncated := by decide
theorem test_decode_bytes_big_endian : decodeBytes [0x6A, 0x42] = .ok (.ldVxNn 10 0x42) := by decide
theorem test_table_word : decodeTableWord 16 0xD01F = some (.drw 0 1 15) := by decide
theorem test_table_unknown : decodeTableWord 16 0x5000 = none := by decide
theorem test_encode_add : encode (.addVxNn 0 0x03) = 0x7003 := by decide

/-! ### One step, on the reset state with a word at 0x200 -/

/-- What the next step leaves, read by `f`. -/
def after {α : Type} (s : State) (f : State → α) : Option α :=
  match step s with
  | .next t => some (f t)
  | _ => none

/-- The reset state with one word at `PC`. -/
def atReset (w : Nat) : State := State.reset.withFetchWord 16 w

/-- L2.8's usual start: `I = 0x300`, two sprite bytes there, and the word at `PC`. -/
def drawState (w : Nat) (b0 b1 : Byte) : State :=
  ((State.reset.setI 0x300).setMem (Memory.load [] 0x300 [b0, b1])).withFetchWord 16 w

/-- L2.3 U4, F6: an unknown word moves `PC` only, and is reported. -/
theorem test_unknown_skips : after (atReset 0x5000) (·.pc) = some 0x202 := by decide
theorem test_unknown_outcome : (stepResult State.reset).outcome = .error .unknownInstruction := by decide
/-- F2: an odd `PC` fetches normally. -/
theorem test_fetch_odd :
    after ((State.reset.setPc 0x203).withFetchWord 16 0x6005) (fun t => (t.pc, t.readV 0)) = some (0x205, 5) := by decide
/-- F3: a fetch of the last word of memory leaves `PC = 0x1000`. -/
theorem test_fetch_top :
    after ((State.reset.setPc 0xFFE).withFetchWord 16 0x6A42) (fun t => (t.pc, t.readV 10)) = some (0x1000, 0x42) := by
  decide
/-- F4: no fetch at 0xFFF, and nothing changes. -/
theorem test_fetch_lock : stepResult (State.reset.setPc 0xFFF) = ⟨State.reset.setPc 0xFFF, .error .outOfBounds⟩ := by
  decide

/-- C1: every cell off, VF kept. -/
theorem test_cls :
    after (((atReset 0x00E0).setV 15 1).setDisp (Display.blank.setCell 63 31 true)) (fun t => (t.cell 63 31, t.readV 15)) =
      some (false, 1) := by decide
/-- J1 and J3. -/
theorem test_jp : after (atReset 0x1234) (·.pc) = some 0x234 := by decide
theorem test_jp_top : after (atReset 0x1FFF) (·.pc) = some 0xFFF := by decide
/-- L1 and L4. -/
theorem test_ldVxNn : after ((atReset 0x63A5).setV 3 0x77) (fun t => (t.readV 3, t.pc)) = some (0xA5, 0x202) := by decide
theorem test_ldVxNn_vf : after ((atReset 0x6F00).setV 15 1) (·.readV 15) = some 0 := by decide
/-- A2 and A5. -/
theorem test_addVxNn_wraps : after ((atReset 0x7101).setV 1 0xFF) (fun t => (t.readV 1, t.readV 15)) = some (0, 0) := by
  decide
theorem test_addVxNn_vf : after ((atReset 0x7FFF).setV 15 5) (·.readV 15) = some 4 := by decide
/-- I1. -/
theorem test_ldINnn : after ((atReset 0xA050).setI 0x123) (·.i) = some 0x050 := by decide
/-- Worked by hand from R143 to R146: the column is VF's value before the clear (62), only columns 62 and 63 of row 31
are drawn, neither wraps to column 0 or row 0, and the cell that was on goes off, so VF is 1. -/
theorem test_drw_clips_and_collides :
    after ((((drawState 0xDF12 0xFF 0x81).setV 15 62).setV 1 31).setDisp (Display.blank.setCell 63 31 true))
      (fun t => (t.cell 62 31, t.cell 63 31, t.cell 0 31, t.cell 62 0, t.readV 15)) =
      some (true, false, false, false, 1) := by decide
/-- D6: a draw across the top of memory changes nothing but `PC`, and is reported. -/
theorem test_drw_out_of_bounds :
    after (((atReset 0xD012).setI 0xFFF).setV 15 3) (fun t => (t.readV 15, t.pc, t.disp == Display.blank)) =
        some (3, 0x202, true) ∧
      (stepResult (((atReset 0xD012).setI 0xFFF).setV 15 3)).outcome = .error .outOfBounds := by decide

/-! ### The other operations -/

/-- T2 and T3. -/
theorem test_tick : ((tick (State.reset.setTimers 5 1)).dt, (tick (State.reset.setTimers 5 1)).st) = (4, 0) := by decide
theorem test_tick_floor : ((tick (State.reset.setTimers 0 0xFF)).dt, (tick (State.reset.setTimers 0 0xFF)).st) = (0, 0xFE) := by
  decide
/-- K4: glyph 0 of the default font, and a glyph's place, `0x050 + 5 * d` (glyph F ends the table). -/
theorem test_font_glyph_0 : (List.range 5).map (fun k => State.reset.byte (0x050 + k)) = [0xF0, 0x90, 0x90, 0x90, 0xF0] := by
  decide
theorem test_font_glyph_F :
    (List.range 5).map (fun k => State.reset.byte (0x050 + 5 * 15 + k)) = [0xF0, 0x80, 0xF0, 0x80, 0x80] := by decide
/-- K1. -/
theorem test_construct_too_large :
    construct (standardConfig 0) (List.replicate 3585 0) = .error .programTooLarge := by
  rcases construct_cases (standardConfig 0) (List.replicate 3585 0) with h | h
  · exact h.2
  · exact absurd h.1 (by rw [List.length_replicate]; decide)
/-- R191: the image lies at 0x200, and a byte after it is 0. -/
theorem test_construct_places_program :
    (construct (standardConfig 0) [0x60, 0x05]).map (fun m => (m.byte 0x200, m.byte 0x201, m.byte 0x202)) =
      .ok (0x60, 0x05, 0) := by decide
/-- R191 with a font of zeros: the parameter, not the default table, is what memory holds. -/
theorem test_construct_other_font :
    (construct { standardConfig 0 with font := Vector.replicate 80 0 } []).map (fun m => (m.byte 0x050, m.mem.wf)) =
      .ok (0, true) := by decide
/-- K6. -/
theorem test_snapshot_order :
    let p := snapshot (State.reset.setDisp (Display.blank.setCell 1 0 true))
    (p[0]?, p[1]?, p[32]?) = (some false, some false, some true) := by decide
/-- K8. -/
theorem test_setKeys : (setKeys 0x8001 State.reset).keys = 0x8001 := by decide
theorem test_push_full : stackPush 0 0x202 State.reset = .error .stackOverflow := by rfl
theorem test_pop_empty : stackPop State.reset = .error .stackUnderflow := by rfl
/-- R176: one frame of one step replies five times. -/
theorem test_frame_replies :
    (runOps (frameOps (standardConfig 1) 0x8001) (atReset 0x1200)).1.take 3 = [.outcome .ok, .nothing, .nothing] := by decide
/-- A write of what the address reads as when unlisted takes the cell out, so equal memories are equal lists. -/
theorem test_memory_write_back : ((Memory.write [] 0x300 7).write 0x300 0) = [] := by decide
theorem test_memory_wf_refuses_unsorted : Memory.wf [(5, 1), (3, 1)] = false := by decide

/-- P3: labels, instructions and data assemble to the bytes that the spec gives. -/
theorem test_assemble_P3 :
    assemble [.ldILabel 0, .ins (.ldVxNn 0 0x3C), .ins (.ldVxNn 1 0x1F), .ins (.drw 0 1 2), .ins (.drw 0 1 2),
      .label 1, .jpLabel 1, .label 0, .db 0xFF, .db 0x81] =
      some [0xA2, 0x0C, 0x60, 0x3C, 0x61, 0x1F, 0xD0, 0x12, 0xD0, 0x12, 0x12, 0x0A, 0xFF, 0x81] := by decide
/-- R79's example. -/
theorem test_asmText_add : asmText (.addVxNn 0 0x03) = "ADD V0, 0x03" := by decide
theorem test_asmText_drw : asmText (.drw 10 1 2) = "DRW VA, V1, 0x2" := by decide

/-! ### Witnesses: states and operands that meet the hypotheses of the statements, all together -/

/-- 0x200 holds `JP 0x200`: a word at `PC`. -/
theorem witness_wordAtPc : WordAtPc (atReset 0x1200) 0x1200 := by decide
/-- The highest `PC` at which a fetch succeeds. -/
theorem witness_wordAtPc_top : WordAtPc ((State.reset.setPc 0xFFE).withFetchWord 16 0x1200) 0x1200 := by decide

theorem witness_DecodeOfEncodeIsInstruction : (Instr.drw 15 15 15).wellFormed = true := by decide
theorem witness_EncodeOfDecodeIsWord : decodeWord 0xDFFF = .ok (.drw 15 15 15) := by decide
theorem witness_DecodedWordsSelectOneRow :
    ∃ r ∈ opcodeTable, ∃ q ∈ opcodeTable, r.selects 0xDFFF = true ∧ q.selects 0xDFFF = true :=
  ⟨⟨0xD000, 0xF000⟩, by decide, ⟨0xD000, 0xF000⟩, by decide, by decide, by decide⟩
theorem witness_FetchAdvancesOrLocks :
    (State.reset.setPc 0xFFE).pc.toNat ≤ 0xFFE ∧ 0xFFF ≤ (State.reset.setPc 0xFFF).pc.toNat := by decide
theorem witness_StepRunsTheDecodedInstruction :
    WordAtPc (atReset 0xD011) 0xD011 ∧ decodeWord 0xD011 = .ok (.drw 0 1 1) := by decide
theorem witness_UnknownWordIsSkipped :
    WordAtPc (atReset 0x00E1) 0x00E1 ∧ ∀ r ∈ opcodeTable, r.selects 0x00E1 = false := by decide
theorem witness_ErrorsArePrecise_fetch : (stepResult (State.reset.setPc 0x1000)).outcome = .error .outOfBounds := by decide
theorem witness_ErrorsArePrecise_execute : (stepResult (atReset 0x5000)).outcome = .error .unknownInstruction := by decide
/-- Each side of the first equivalence can hold: a draw of two rows at the last byte of memory. -/
theorem witness_OutcomeFollowsThePhases_draw :
    WordAtPc (atReset 0xD012) 0xD012 ∧ decodeWord 0xD012 = .ok (.drw 0 1 2) ∧
      ¬ SpriteReadable ((atReset 0xD012).setI 0xFFF) 1 2 :=
  ⟨by decide, by decide, fun h => absurd (h 1 (by decide)) (by decide)⟩
theorem witness_JumpToItselfIdles :
    WordAtPc (atReset 0x1200) (0x1#4 ++ 0x200#12) ∧ (atReset 0x1200).pc.toNat = (0x200#12).toNat := by decide
/-- One row at the last byte of memory, on the last display row. -/
theorem witness_SpriteReadable_boundary : SpriteReadable (((State.reset.setI 0xFFF).setV 1 31)) 1 15 := by
  intro r hr
  have h : r < 1 := hr
  show 0xFFF + r ≤ 0xFFF
  omega
/-- A drawn cell in the display's last corner, so the clauses about drawn cells speak of some cell. -/
theorem witness_Drawn_corner : Drawn (((drawState 0xD011 0x80 0).setV 0 63).setV 1 31) 0 1 1 63 31 :=
  ⟨0, 0, by decide, by decide, by decide, by decide, by decide⟩
/-- The cell under that pixel can be on, and it can be off. -/
theorem witness_Drawn_corner_on :
    ((((drawState 0xD011 0x80 0).setV 0 63).setV 1 31).setDisp (Display.blank.setCell 63 31 true)).cell 63 31 = true ∧
      (((drawState 0xD011 0x80 0).setV 0 63).setV 1 31).cell 63 31 = false := by decide
theorem witness_not_Drawn : ¬ Drawn State.reset 0 0 1 0 0 := by
  rintro ⟨r, c, hr, -, -, -, hb⟩
  have : r < 1 := hr
  obtain rfl : r = 0 := by omega
  have hz : State.reset.byte (State.reset.i.toNat + 0) = 0 := by decide
  rw [hz] at hb
  simp at hb
theorem witness_DrawFlipsTheSpriteCells : SpriteReadable (drawState 0xD011 0xA0 0) 1 1 := by
  intro r hr
  have h : r < 1 := hr
  show 0x300 + r ≤ 0xFFF
  omega
theorem witness_DrawBeyondMemoryHasNoEffect :
    ∃ r, r < min 2 (32 - (State.reset.readV 1).toNat % 32) ∧ 0xFFF < (State.reset.setI 0xFFF).i.toNat + r :=
  ⟨1, by decide, by decide⟩
theorem witness_DrawTwiceRestoresTheDisplay :
    (0 : Fin 16) ≠ 15 ∧ (1 : Fin 16) ≠ 15 ∧ SpriteReadable (drawState 0xD011 0xA0 0) 1 1 :=
  ⟨by decide, by decide, witness_DrawFlipsTheSpriteCells⟩
theorem witness_DrawStaysOnTheGrid :
    14 < rowsDrawn 15 (originY 17) ∧ 7 < colsDrawn (originX 56) ∧
      (effect (.drw 0 1 2) (State.reset.setI 0xFFF)).outcome = .error .outOfBounds := by decide
/-- Two memories that differ, and agree on the one byte that the draw reads. -/
theorem witness_DrawReadsOnlyTheDrawnRows :
    let s := (State.reset.setMem [(0x300, 0x80), (0x301, 1)]).setI 0x300
    (∀ r, r < min 1 (32 - (s.readV 1).toNat % 32) → (s.setMem [(0x300, 0x80)]).byte (s.i.toNat + r) = s.byte (s.i.toNat + r)) ∧
      s.mem ≠ [(0x300, 0x80)] := by
  refine ⟨fun r hr => ?_, by decide⟩
  have h : r < 1 := hr
  obtain rfl : r = 0 := by omega
  decide
theorem witness_RegisterWritesFollowTheTable :
    exec (.ldVxNn 15 7) State.reset = .next (State.reset.setV 15 7) ∧
      (State.reset.setV 15 7).readV 15 ≠ State.reset.readV 15 := ⟨rfl, by decide⟩
/-- The three cases of the statement: a failed fetch, an instruction that leaves `PC` to the fetch, a jump. -/
theorem witness_OnlyFetchAndJumpWritePc :
    step (State.reset.setPc 0xFFF) = .next (State.reset.setPc 0xFFF) ∧
      after (atReset 0x6005) (·.pc) = some 0x202 ∧ after (atReset 0x1FFF) (·.pc) = some 0xFFF := ⟨rfl, by decide, by decide⟩
theorem witness_IndexAndDisplayWriters_index :
    exec (.ldINnn 0xFFF) State.reset = .next (State.reset.setI 0xFFF) ∧ (State.reset.setI 0xFFF).i ≠ State.reset.i :=
  ⟨rfl, by decide⟩
theorem witness_IndexAndDisplayWriters_display :
    let s := State.reset.setDisp (Display.blank.setCell 0 0 true)
    exec .cls s = .next State.reset ∧ State.reset.disp ≠ s.disp := ⟨rfl, by decide⟩
theorem witness_StepKeepsMemoryTimersStackKeys : step (atReset 0x1200) = .next (stepResult (atReset 0x1200)).state :=
  step_eq_answer_stepResult _
theorem witness_WrittenByteIsReadBack : (0xFFF : Nat) ≤ 0xFFF ∧ State.reset.mem.wf = true ∧ 0xFFF < 0x1000 := by decide
theorem witness_CanonicalMemoriesAreEqual : Memory.wf [(0, 1), (0x050, 0), (0xFFF, 7)] = true := by decide
theorem witness_PushAppendsOrOverflows :
    (State.reset.setStack [0x202]).stack.length = 1 ∧ State.reset.stack.length ≠ 1 := by decide
theorem witness_PopReturnsTheLastPush :
    State.reset.stack = [] ∧ stackPush 1 0x202 State.reset = .ok (State.reset.setStack [0x202]) := ⟨rfl, rfl⟩
theorem witness_ConstructRefusesOnlyLongImages :
    (List.replicate 3585 (0 : Byte)).length > 4096 - 0x200 ∧ (List.replicate 3584 (0 : Byte)).length ≤ 3584 := by
  rw [List.length_replicate, List.length_replicate]; decide
/-- A constructed machine: an image of two bytes and the default font. It is the witness of
EveryReadReturnsTheConstructedByte too. -/
theorem witness_ConstructPlacesFontAndProgram :
    construct (standardConfig 1) [0x12, 0x00] = .ok (atReset 0x1200) := by rfl
theorem witness_PlacedWordIsFetched : (atReset 0x1200).mem.wf = true ∧ (atReset 0x1200).pc.toNat ≤ 0xFFE := by decide
theorem witness_TickCountsDownToZero :
    (State.reset.setTimers 1 0xFF).dt.toNat > 0 ∧ (State.reset.setTimers 1 0xFF).st.toNat > 0 ∧ State.reset.dt.toNat = 0 ∧
      State.reset.st.toNat = 0 := by decide
/-- A state at every bound of the invariant: the witness of OperationsKeepTheInvariant. -/
theorem witness_Inv : Inv 1 (((State.reset.setPc 0x1000).setI 0xFFF).setStack [0x202]) :=
  ⟨by decide, by decide, by decide, by decide⟩
theorem witness_StepKeepsTheInvariant :
    Inv 1 (State.reset.setPc 0x1000) ∧ step (State.reset.setPc 0x1000) = .next (State.reset.setPc 0x1000) :=
  ⟨⟨by decide, by decide, by decide, by decide⟩, rfl⟩
/-- A reachable state that is not the constructed machine, after a step and `set_keys`: the witness of
ReachableStatesMeetTheInvariant and ReachableTimersAndStackStayReset. -/
theorem witness_Reachable :
    Reachable (standardConfig 1) (setKeys 0x8001 (stepResult (atReset 0x1200)).state) :=
  ⟨[0x12, 0x00], atReset 0x1200, [.step, .setKeys 0x8001], witness_ConstructPlacesFontAndProgram, rfl⟩
/-- The hypotheses of OperationsKeepTimersAndStackReset hold of the reset state, and of a state with a word to run. -/
theorem witness_OperationsKeepTimersAndStackReset :
    (State.reset.stack = [] ∧ State.reset.dt = 0 ∧ State.reset.st = 0) ∧
      (atReset 0xD011).stack = [] ∧ (atReset 0xD011).dt = 0 ∧ (atReset 0xD011).st = 0 := by decide

end Sys2Proof.Tests
end

section
/-! SUPPORT. What one instruction writes, said once for all six: the state that an effect leaves is one of seven
updates of the state it is given. The rules over all instructions (spec/10_state.md R21 to R34) and the invariant of a
step follow by cases on it. -/

namespace Sys2Proof.Machine

/-- The state `t` that instruction `i` may leave when it runs on `s`: the writes of R110, R121 to R123, R140 and R146.
A draw either completes, with some display and flag, or raises and writes nothing. -/
inductive InstrWrites (s : State) : Instr → State → Prop
  | cls : InstrWrites s .cls (s.setDisp Display.blank)
  | jp (nnn : BitVec 12) : InstrWrites s (.jp nnn) (s.setPc (zext16 nnn))
  | ldVxNn (x : Fin 16) (nn : Byte) : InstrWrites s (.ldVxNn x nn) (s.setV x nn)
  | addVxNn (x : Fin 16) (nn : Byte) : InstrWrites s (.addVxNn x nn) (s.setV x (add8 (s.readV x) nn))
  | ldINnn (nnn : BitVec 12) : InstrWrites s (.ldINnn nnn) (s.setI (zext16 nnn))
  | drwDone (x y : Fin 16) (n : Nat) (d : Display) (vf : Byte) :
      InstrWrites s (.drw x y n) ((s.setDisp d).setV flagReg vf)
  | drwRaised (x y : Fin 16) (n : Nat) : InstrWrites s (.drw x y n) s

theorem effect_writes (i : Instr) (s : State) : InstrWrites s i (effect i s).state := by
  cases i with
  | cls => exact .cls
  | jp nnn => exact .jp nnn
  | ldVxNn x nn => exact .ldVxNn x nn
  | addVxNn x nn => exact .addVxNn x nn
  | ldINnn nnn => exact .ldINnn nnn
  | drw x y n =>
    show InstrWrites s (.drw x y n) (drwEffect x y n s).state
    obtain ⟨-, k, -, hk⟩ | ⟨-, he⟩ := drwEffect_cases x y n s
    · rw [hk]; exact .drwDone x y n k.disp k.vf
    · rw [he]; exact .drwRaised x y n

theorem exec_writes {i : Instr} {s t : State} (h : exec i s = .next t) : InstrWrites s i t := by
  rw [exec_eq_answer_effect] at h
  exact Result.answer_inj h ▸ effect_writes i s

@[simp] theorem zext16_toNat (nnn : BitVec 12) : (zext16 nnn).toNat = nnn.toNat := by
  have := nnn.isLt
  simp only [zext16, BitVec.toNat_setWidth]; omega

section
variable {i : Instr} {s t : State} (h : InstrWrites s i t)
include h

namespace InstrWrites

theorem mem_eq : t.mem = s.mem := by cases h <;> rfl
theorem dt_eq : t.dt = s.dt := by cases h <;> rfl
theorem st_eq : t.st = s.st := by cases h <;> rfl
theorem stack_eq : t.stack = s.stack := by cases h <;> rfl
theorem keys_eq : t.keys = s.keys := by cases h <;> rfl

/-- Only 1NNN writes `PC` after the fetch (R24). -/
theorem pc_cases : t.pc = s.pc ∨ ∃ nnn, i = .jp nnn ∧ t.pc.toNat = nnn.toNat := by
  cases h with
  | jp nnn => exact .inr ⟨nnn, rfl, zext16_toNat nnn⟩
  | _ => exact .inl rfl

/-- Only ANNN writes `I` (R23). -/
theorem i_cases : t.i = s.i ∨ ∃ nnn, i = .ldINnn nnn ∧ t.i.toNat = nnn.toNat := by
  cases h with
  | ldINnn nnn => exact .inr ⟨nnn, rfl, zext16_toNat nnn⟩
  | _ => exact .inl rfl

/-- Only 00E0 and DXYN write the display (R33). -/
theorem disp_cases : t.disp = s.disp ∨ i = .cls ∨ ∃ x y n, i = .drw x y n := by
  cases h with
  | cls => exact .inr (.inl rfl)
  | drwDone x y n d vf => exact .inr (.inr ⟨x, y, n, rfl⟩)
  | _ => exact .inl rfl

/-- Only 6XNN and 7XNN write a general register, `V[X]`, but for the flag VF, which DXYN writes (R21, R22, R27). -/
theorem readV_cases (k : Fin 16) : t.readV k = s.readV k ∨
    (∃ nn, i = .ldVxNn k nn) ∨ (∃ nn, i = .addVxNn k nn) ∨ (k = 15 ∧ ∃ x y n, i = .drw x y n) := by
  cases h with
  | ldVxNn x nn =>
    by_cases hk : k = x
    · subst hk; exact .inr (.inl ⟨nn, rfl⟩)
    · exact .inl (State.setV_readV_ne s hk nn)
  | addVxNn x nn =>
    by_cases hk : k = x
    · subst hk; exact .inr (.inr (.inl ⟨nn, rfl⟩))
    · exact .inl (State.setV_readV_ne s hk _)
  | drwDone x y n d vf =>
    by_cases hk : k = flagReg
    · exact .inr (.inr (.inr ⟨hk, x, y, n, rfl⟩))
    · exact .inl (State.setV_readV_ne _ hk vf)
  | _ => exact .inl rfl

end InstrWrites
end

/-- What a step leaves, as far as writes go: nothing changed by a failed fetch, or the fetch advance and, where the
word is an instruction, its writes (R100 to R102). -/
theorem stepResult_writes (s : State) :
    (0xFFF ≤ s.pc.toNat ∧ (stepResult s).state = s) ∨
    (∃ w, WordAtPc s w ∧ ((stepResult s).state = s.advancePc ∨
      ∃ i, decodeWord w = .ok i ∧ InstrWrites s.advancePc i (stepResult s).state)) := by
  obtain ⟨hp, hr⟩ | ⟨w, hw, ⟨i, hd, hr⟩ | ⟨-, hr⟩⟩ := stepResult_cases s
  · exact .inl ⟨hp, by rw [hr]; rfl⟩
  · exact .inr ⟨w, hw, .inr ⟨i, hd, by rw [hr]; exact effect_writes i s.advancePc⟩⟩
  · exact .inr ⟨w, hw, .inl (by rw [hr]; rfl)⟩

theorem advancePc_pc_toNat {s : State} (h : s.pc.toNat + 1 ≤ 0xFFF) : s.advancePc.pc.toNat = s.pc.toNat + 2 := by
  rw [State.advancePc_pc, BitVec.toNat_add, show (2 : Word).toNat = 2 from rfl]; omega

end Sys2Proof.Machine
end

section
/-! PROOFS. The invariant: at reset, after `construct`, after every step and after every operation. -/

namespace Sys2Proof.Machine

/-- The invariant speaks of `Mem`, `PC`, `I` and `Stack` alone. -/
theorem Inv.of_fields_eq {depth : Nat} {s t : State} (h : Inv depth s) (hm : t.mem = s.mem) (hp : t.pc = s.pc)
    (hi : t.i = s.i) (hs : t.stack = s.stack) : Inv depth t :=
  ⟨hm ▸ h.memory, hp ▸ h.pc, hi ▸ h.index, hs ▸ h.stack⟩

/-- The fetch advance of a fetch that succeeds leaves `PC` at most 0x1000 (R24, R101). -/
theorem Inv.advancePc {depth : Nat} {s : State} (h : Inv depth s) (hp : s.pc.toNat + 1 ≤ 0xFFF) :
    Inv depth s.advancePc where
  memory := h.memory
  pc := by rw [advancePc_pc_toNat hp]; omega
  index := h.index
  stack := h.stack

/-- An instruction writes only a 12-bit value to `PC` or `I`, and neither memory nor the stack. -/
theorem Inv.of_writes {depth : Nat} {i : Instr} {s t : State} (h : Inv depth s) (hw : InstrWrites s i t) :
    Inv depth t where
  memory := hw.mem_eq ▸ h.memory
  pc := by
    obtain he | ⟨nnn, -, he⟩ := hw.pc_cases
    · exact he ▸ h.pc
    · have := nnn.isLt; omega
  index := by
    obtain he | ⟨nnn, -, he⟩ := hw.i_cases
    · exact he ▸ h.index
    · have := nnn.isLt; omega
  stack := hw.stack_eq ▸ h.stack

theorem Inv.after_step {depth : Nat} {s : State} (h : Inv depth s) : Inv depth (stepResult s).state := by
  obtain ⟨-, he⟩ | ⟨w, hw, he | ⟨i, -, hi⟩⟩ := stepResult_writes s
  · rw [he]; exact h
  · rw [he]; exact h.advancePc hw.1
  · exact (h.advancePc hw.1).of_writes hi

theorem Inv.after_perform {depth : Nat} (op : DriverOp) {s : State} (h : Inv depth s) : Inv depth (perform op s).2 := by
  cases op with
  | step => exact h.after_step
  | tick => exact h.of_fields_eq rfl rfl rfl rfl
  | setKeys mask => exact h.of_fields_eq rfl rfl rfl rfl
  | snapshot => exact h
  | sound => exact h

theorem Inv.reset (depth : Nat) : Inv depth State.reset where
  memory := Memory.nil_wf
  pc := by decide
  index := by decide
  stack := Nat.zero_le depth

/-- A constructed machine differs from the reset state in its memory, which the two loads leave canonical (R191). -/
theorem Inv.of_construct {cfg : Config} {program : List Byte} {m : State} (depth : Nat)
    (h : construct cfg program = .ok m) : Inv depth m := by
  obtain ⟨-, hc⟩ | ⟨hlen, hc⟩ := construct_cases cfg program
  · simp [hc] at h
  · obtain rfl : State.reset.setMem (initialMemory cfg.font program) = m := by simpa [hc] using h
    have hr := Inv.reset depth
    exact ⟨initialMemory_wf cfg.font hlen, hr.pc, hr.index, hr.stack⟩

/-- Settles O46: a step advances `PC` by a successful fetch, and an instruction then writes at most 12 bits to `PC` or
`I`. -/
theorem stepKeepsTheInvariant : Obligations.StepKeepsTheInvariant := by
  intro depth s t h hstep
  exact step_next hstep ▸ h.after_step

/-- Settles O47, for every stack depth at once. -/
theorem resetMeetsTheInvariant : Obligations.ResetMeetsTheInvariant := Inv.reset

/-- Settles O49: `construct` establishes the invariant and every operation keeps it. -/
theorem reachableStatesMeetTheInvariant : Obligations.ReachableStatesMeetTheInvariant := by
  intro cfg s h
  exact h.of_keeps (fun _ _ hc => .of_construct cfg.stackDepth hc) (fun op _ hs => hs.after_perform op)

end Sys2Proof.Machine
end

section
/-! PROOFS. Which instruction writes which register (spec/10_state.md R21 to R24, R33). -/

namespace Sys2Proof.Machine

/-- A word is its top four bits followed by its low twelve (R71). -/
theorem opField_append_nnnField (w : Word) : opField w ++ nnnField w = w := by
  apply BitVec.eq_of_toNat_eq
  rw [append_4_12_toNat, opField_toNat, nnnField_eq, BitVec.toNat_ofNat]
  omega

/-- Only the word 1NNN decodes to a jump to NNN (R73). -/
theorem word_of_decodeWord_eq_jp {w : Word} {nnn : BitVec 12} (h : decodeWord w = .ok (.jp nnn)) :
    w = 0x1#4 ++ nnn := by
  unfold decodeWord at h
  split_ifs at h with _ hop <;> cases h
  rw [← hop, opField_append_nnnField]

/-- Settles O26: the register rule of an instruction's writes. -/
theorem registerWritesFollowTheTable : Obligations.RegisterWritesFollowTheTable := by
  intro i s t h k hk
  exact ((exec_writes h).readV_cases k).resolve_left hk

/-- Settles O27: the three cases are a failed fetch, a word that leaves the fetch advance, and a jump. -/
theorem onlyFetchAndJumpWritePc : Obligations.OnlyFetchAndJumpWritePc := by
  intro s t h
  obtain rfl := step_next h
  obtain ⟨hp, he⟩ | ⟨w, hw, he | ⟨i, hd, hi⟩⟩ := stepResult_writes s
  · exact .inl ⟨hp, by rw [he]⟩
  · exact .inr (.inl ⟨by have := hw.1; omega, by rw [he, advancePc_pc_toNat hw.1]⟩)
  · obtain he | ⟨nnn, rfl, he⟩ := hi.pc_cases
    · exact .inr (.inl ⟨by have := hw.1; omega, by rw [he, advancePc_pc_toNat hw.1]⟩)
    · obtain rfl := word_of_decodeWord_eq_jp hd
      exact .inr (.inr ⟨nnn, hw, he⟩)

/-- Settles O28: the rules of an instruction's writes for `I` and for the display. -/
theorem indexAndDisplayWriters : Obligations.IndexAndDisplayWriters := by
  intro i s t h
  have hw := exec_writes h
  exact ⟨hw.i_cases.resolve_left, hw.disp_cases.resolve_left⟩

end Sys2Proof.Machine
end

section
/-! PROOFS. Noninterference: no step reads a timer or the key latch, so a step commutes with any write of the three
(spec/10_state.md R25, R26, R34). -/

namespace Sys2Proof.Machine

/-- The state with both timers and the key latch written: all that `tick` and `set_keys` can write. -/
def State.setDevices (s : State) (dt st : Byte) (keys : Word) : State := (s.setTimers dt st).setKeyLatch keys

theorem setKeys_eq_setDevices (mask : Word) (s : State) : setKeys mask s = s.setDevices s.dt s.st mask := rfl

theorem tick_eq_setDevices (s : State) : tick s = s.setDevices (countDown s.dt) (countDown s.st) s.keys := rfl

theorem drwEffect_of_readable {x y : Fin 16} {n : Nat} {s : State} (h : SpriteReadable s y n) :
    drwEffect x y n s =
      let k := drawRows (spriteRow s) (originX (s.readV x)) (originY (s.readV y))
        (rowsDrawn n (originY (s.readV y))) (colsDrawn (originX (s.readV x))) ⟨s.disp, noCollision⟩
      complete ((s.setDisp k.disp).setV flagReg k.vf) := by
  obtain ⟨-, k, rfl, hk⟩ | ⟨hn, -⟩ := drwEffect_cases x y n s
  · exact hk
  · exact absurd h hn

theorem drwEffect_of_not_readable {x y : Fin 16} {n : Nat} {s : State} (h : ¬ SpriteReadable s y n) :
    drwEffect x y n s = raiseInExecute .outOfBounds s :=
  (drwEffect_cases x y n s).elim (fun hr => absurd hr.1 h) And.right

theorem effect_setDevices (i : Instr) (s : State) (dt st : Byte) (keys : Word) :
    effect i (s.setDevices dt st keys) = ⟨(effect i s).state.setDevices dt st keys, (effect i s).outcome⟩ := by
  cases i with
  | drw x y n =>
    show drwEffect x y n (s.setDevices dt st keys) =
      ⟨(drwEffect x y n s).state.setDevices dt st keys, (drwEffect x y n s).outcome⟩
    by_cases h : SpriteReadable s y n
    · rw [drwEffect_of_readable h, drwEffect_of_readable (s := s.setDevices dt st keys) h]; rfl
    · rw [drwEffect_of_not_readable h, drwEffect_of_not_readable (s := s.setDevices dt st keys) h]; rfl
  | _ => rfl

/-- A step neither reads the timers and the key latch nor has its outcome depend on them. -/
theorem stepResult_setDevices (s : State) (dt st : Byte) (keys : Word) :
    stepResult (s.setDevices dt st keys) =
      ⟨(stepResult s).state.setDevices dt st keys, (stepResult s).outcome⟩ := by
  obtain ⟨hp, hr⟩ | ⟨w, hw, ⟨i, hd, hr⟩ | ⟨⟨e, hd⟩, hr⟩⟩ := stepResult_cases s
  · rw [hr, stepResult_of_pc_high (s := s.setDevices dt st keys) hp]; rfl
  · rw [hr, stepResult_of_decode (s := s.setDevices dt st keys) hw hd]
    exact effect_setDevices i s.advancePc dt st keys
  · rw [hr, stepResult_of_unknown (s := s.setDevices dt st keys) hw hd]; rfl

/-- A step leaves the timers and the key latch as they are (R25, R26, R34). -/
theorem stepResult_devices_eq (s : State) :
    (stepResult s).state.dt = s.dt ∧ (stepResult s).state.st = s.st ∧ (stepResult s).state.keys = s.keys := by
  obtain ⟨-, he⟩ | ⟨w, -, he | ⟨i, -, hi⟩⟩ := stepResult_writes s
  · rw [he]; exact ⟨rfl, rfl, rfl⟩
  · rw [he]; exact ⟨rfl, rfl, rfl⟩
  · exact ⟨hi.dt_eq, hi.st_eq, hi.keys_eq⟩

theorem stepResult_setKeys (mask : Word) (s : State) :
    stepResult (setKeys mask s) = ⟨setKeys mask (stepResult s).state, (stepResult s).outcome⟩ := by
  obtain ⟨hdt, hst, -⟩ := stepResult_devices_eq s
  rw [setKeys_eq_setDevices, stepResult_setDevices, setKeys_eq_setDevices, hdt, hst]

/-- Settles O30: `set_keys` writes the key latch alone, with which a step commutes. -/
theorem keysAreNotRead : Obligations.KeysAreNotRead := stepResult_setKeys

/-- Settles O31: a tick computes from the timers alone, which a step leaves as they are. -/
theorem tickAndStepCommute : Obligations.TickAndStepCommute := by
  intro s
  obtain ⟨hdt, hst, hkeys⟩ := stepResult_devices_eq s
  rw [tick_eq_setDevices, stepResult_setDevices, tick_eq_setDevices, hdt, hst, hkeys]

/-- Whether an operation is another one than `set_keys`. -/
def DriverOp.keepsKeys : DriverOp → Bool
  | .setKeys _ => false
  | _ => true

/-- Every operation but `set_keys` commutes with an earlier `set_keys`. -/
theorem perform_setKeys {op : DriverOp} (h : op.keepsKeys = true) (mask : Word) (s : State) :
    (perform op (setKeys mask s)).2 = setKeys mask (perform op s).2 := by
  cases op with
  | step => exact congrArg Result.state (stepResult_setKeys mask s)
  | setKeys m => exact absurd h Bool.false_ne_true
  | tick => rfl
  | snapshot => rfl
  | sound => rfl

/-- Without its `set_keys` operations a run leaves the same machine but for the latch. -/
theorem runOps_setKeys (ops : List DriverOp) (s : State) (mask : Word) :
    ∃ last, (runOps ops (setKeys mask s)).2 = setKeys last (runOps (ops.filter DriverOp.keepsKeys) s).2 := by
  induction ops generalizing s mask with
  | nil => exact ⟨mask, rfl⟩
  | cons op ops ih =>
    by_cases h : op.keepsKeys = true
    · rw [List.filter_cons_of_pos h, runOps_cons, runOps_cons, perform_setKeys h]
      exact ih (perform op s).2 mask
    · rw [List.filter_cons_of_neg h]
      cases op with
      | setKeys m => exact ih s m
      | _ => exact absurd rfl h

/-- Settles O52: the run differs from the one without `set_keys` in the latch alone, which no observation reads. -/
theorem keySchedulesAreUnobservable : Obligations.KeySchedulesAreUnobservable := by
  intro ops s
  obtain ⟨last, hrun⟩ : ∃ last, (runOps ops s).2 = setKeys last (runOps (ops.filter DriverOp.keepsKeys) s).2 :=
    runOps_setKeys ops s s.keys
  have hout := congrArg Result.outcome (stepResult_setKeys last (runOps (ops.filter DriverOp.keepsKeys) s).2)
  intro withKeys without
  rw [show withKeys = setKeys last without from hrun]
  exact ⟨rfl, hout, rfl, rfl⟩

end Sys2Proof.Machine
end

section
/-! PROOFS. The observations and the small writes of the interface, the call stack and the reset values
(spec/10_state.md R20, R30, R31, R44 to R46). -/

namespace Sys2Proof.Machine

/-- The snapshot's list is the display's columns, one after the other. -/
theorem snapshot_eq_flatten (s : State) : snapshot s = s.disp.flatten.toList := by
  simp only [snapshot, Vector.flatten, List.flatMap, Vector.toList_mk, Array.toList_flatten, Array.toList_map,
    List.map_map]
  rfl

/-- Settles O44: cell `k` of the display read column by column is row `k % 32` of column `k / 32`. -/
theorem snapshotIsColumnMajor : Obligations.SnapshotIsColumnMajor := by
  intro s
  refine ⟨rfl, by rw [snapshot_eq_flatten, Vector.length_toList]; rfl, fun k hk => ?_⟩
  have hk' : k < dispW * dispH := by simp only [dispW, dispH]; omega
  have hx : k / 32 < dispW ∧ k % 32 < dispH := by simp only [dispW, dispH]; omega
  rw [snapshot_eq_flatten, State.cell, Display.cell, dif_pos hx]
  simp [hk']

theorem stackPush_full {depth : Nat} {a : Word} {s : State} (h : s.stack.length = depth) :
    stackPush depth a s = .error .stackOverflow := if_pos h

theorem stackPush_not_full {depth : Nat} {a : Word} {s : State} (h : s.stack.length ≠ depth) :
    stackPush depth a s = .ok (s.setStack (s.stack ++ [a])) := if_neg h

theorem stackPop_append (l : List Word) (a : Word) (s : State) :
    stackPop (s.setStack (l ++ [a])) = .ok (a, s.setStack l) := by
  simp only [stackPop, State.setStack_stack, List.getLast?_concat, List.dropLast_concat]; rfl

/-- Settles O34: the push compares the stack's length with the depth and writes the stack alone. -/
theorem pushAppendsOrOverflows : Obligations.PushAppendsOrOverflows := by
  intro depth a s
  exact ⟨stackPush_full, fun h => ⟨s.setStack (s.stack ++ [a]), stackPush_not_full h, rfl, State.setStack_readV s _,
    rfl, rfl, rfl, rfl, rfl, rfl, State.setStack_byte s _⟩⟩

/-- Settles O35: the only push that succeeds is one on a stack that is not full, and the pop takes off what it appended.
-/
theorem popReturnsTheLastPush : Obligations.PopReturnsTheLastPush := by
  refine ⟨fun s h => by simp [stackPop, h], fun depth a s t hpush => ?_⟩
  by_cases h : s.stack.length = depth
  · simp [stackPush_full h] at hpush
  · obtain rfl : s.setStack (s.stack ++ [a]) = t := by simpa [stackPush_not_full h] using hpush
    exact stackPop_append s.stack a s

@[simp] theorem State.reset_readV (k : Fin 16) : State.reset.readV k = 0 := by
  simp [State.readV, State.reset]

/-- Outside the font an unlisted address reads as 0 (decision D2). -/
theorem unlistedByte_of_not_font {a : Nat} (h : ¬ (0x050 ≤ a ∧ a ≤ 0x09F)) : unlistedByte a = 0 :=
  dif_neg (by simp only [fontBase, fontSize]; omega)

/-- Settles O38: every address outside the font is unlisted at reset, and there reads as 0. -/
theorem resetHoldsTheResetValues : Obligations.ResetHoldsTheResetValues := by
  refine ⟨State.reset_readV, rfl, rfl, rfl, rfl, rfl, Display.blank_cell, rfl, fun a ha hfont => ?_⟩
  rw [memRead_ok ha, State.reset_byte, unlistedByte_of_not_font hfont]

/-- Settles O42, by the frame of the latch's write. -/
theorem setKeysWritesOnlyTheLatch : Obligations.SetKeysWritesOnlyTheLatch := by
  intro mask s
  exact ⟨setKeys mask s, rfl, setKeys_keys mask s, State.setKeyLatch_readV s mask, rfl, rfl, rfl, rfl, rfl, rfl,
    State.setKeyLatch_byte s mask⟩

theorem toneOn_iff (s : State) : toneOn s = true ↔ s.st.toNat ≠ 0 := by
  rw [toneOn, sound, bne_iff_ne, ne_eq, ← BitVec.toNat_inj]; rfl

/-- Settles O43: the tone is on when the byte that `sound` returns is not 0. -/
theorem soundReturnsTheSoundTimer : Obligations.SoundReturnsTheSoundTimer := fun s => ⟨rfl, toneOn_iff s⟩

end Sys2Proof.Machine
end

section
/-! PROOFS. Memory: no operation of the driver writes it, and what the primitive write changes (spec/20_memory.md R50,
R54, R55, R60, R63). -/

namespace Sys2Proof.Machine

/-- A read of one address depends on the machine only through the byte there (R54). -/
theorem memRead_congr {a : Nat} {s t : State} (h : t.byte a = s.byte a) : memRead a t = memRead a s := by
  rw [memRead, memRead, h]

/-! ### No operation writes memory -/

/-- A step leaves memory and the call stack as they are (R31, R50). -/
theorem stepResult_mem_stack_eq (s : State) :
    (stepResult s).state.mem = s.mem ∧ (stepResult s).state.stack = s.stack := by
  obtain ⟨-, he⟩ | ⟨w, -, he | ⟨i, -, hi⟩⟩ := stepResult_writes s
  · rw [he]; exact ⟨rfl, rfl⟩
  · rw [he]; exact ⟨rfl, rfl⟩
  · exact ⟨hi.mem_eq, hi.stack_eq⟩

theorem perform_mem_eq (op : DriverOp) (s : State) : (perform op s).2.mem = s.mem := by
  cases op with
  | step => exact (stepResult_mem_stack_eq s).1
  | tick => exact tick_mem s
  | setKeys mask => exact setKeys_mem mask s
  | snapshot => rfl
  | sound => rfl

/-- Settles O54: a read sees memory alone, which every operation leaves as it is. -/
theorem operationsKeepEveryRead : Obligations.OperationsKeepEveryRead := by
  intro op s a
  exact memRead_congr (congrArg (Memory.read · a) (perform_mem_eq op s))

/-- Settles O51: what a read answers is kept by each operation (O54), so by every sequence of them. -/
theorem everyReadReturnsTheConstructedByte : Obligations.EveryReadReturnsTheConstructedByte := by
  intro cfg program m ops _ a
  exact runOps_keeps (P := fun t => memRead a t = memRead a m)
    (fun op s hs => (operationsKeepEveryRead op s a).trans hs) ops rfl

/-- Settles O29, by the frame of a step. -/
theorem stepKeepsMemoryTimersStackKeys : Obligations.StepKeepsMemoryTimersStackKeys := by
  intro s t h
  obtain rfl := step_next h
  obtain ⟨hdt, hst, hkeys⟩ := stepResult_devices_eq s
  obtain ⟨hmem, hstack⟩ := stepResult_mem_stack_eq s
  exact ⟨⟨fun a => congrArg (Memory.read · a) hmem, hdt, hst, hstack, hkeys⟩, hmem⟩

/-! ### The primitive write -/

/-- Settles O32: the write is the memory's own write at a checked address, which keeps the canonical form and changes
one byte. -/
theorem writtenByteIsReadBack : Obligations.WrittenByteIsReadBack := by
  intro a b s
  refine ⟨fun ha => ⟨memRead_error ha, memWrite_error ha⟩, fun ha hwf => ?_⟩
  have hbyte : ∀ c, (s.setMem (s.mem.write a b)).byte c = if c = a then b else s.byte c :=
    fun c => Memory.write_read a c b hwf
  refine ⟨s.setMem (s.mem.write a b), memWrite_ok ha, Memory.write_wf b (Nat.lt_succ_of_le ha) hwf, ?_, ?_,
    rfl, rfl, rfl, rfl, rfl, rfl, rfl, rfl⟩
  · rw [memRead_ok ha, hbyte, if_pos rfl]
  · intro c hc
    exact memRead_congr (by rw [hbyte, if_neg hc])

end Sys2Proof.Machine
end

section
/-! PROOFS. The encoder, the decoder and the opcode table agree: what each field of a word put together from fields is,
how a word is put together again from its own fields, and which instruction a word decodes to (spec/30_encoding.md R71,
R73, R74). -/

namespace Sys2Proof.Machine

/-! ### The fields of a word put together from fields -/

theorem opField_append (op : BitVec 4) (low : BitVec 12) : opField (op ++ low) = op :=
  BitVec.extractLsb'_append_eq_left

theorem nnnField_append (op : BitVec 4) (low : BitVec 12) : nnnField (op ++ low) = low :=
  BitVec.extractLsb'_append_eq_right

theorem regBits_toNat (x : Fin 16) : (regBits x).toNat = x.val := by
  simp [regBits]

theorem xField_append (op : BitVec 4) (x : Fin 16) (nn : Byte) : xField (op ++ (regBits x ++ nn)) = x := by
  have := nn.isLt
  apply Fin.ext
  rw [xField_eq, append_4_12_toNat, append_4_8_toNat, regBits_toNat, Fin.val_ofNat]
  omega

theorem nnField_append (op hi : BitVec 4) (nn : Byte) : nnField (op ++ (hi ++ nn)) = nn := by
  have := nn.isLt
  apply BitVec.eq_of_toNat_eq
  rw [nnField_eq, append_4_12_toNat, append_4_8_toNat, BitVec.toNat_ofNat]
  omega

theorem yField_append (op hi : BitVec 4) (y : Fin 16) (lo : BitVec 4) :
    yField (op ++ (hi ++ (regBits y ++ lo))) = y := by
  have := lo.isLt
  apply Fin.ext
  rw [yField_eq, append_4_12_toNat, append_4_8_toNat, append_4_4_toNat, regBits_toNat, Fin.val_ofNat]
  omega

theorem nField_append (op hi mid lo : BitVec 4) : nField (op ++ (hi ++ (mid ++ lo))) = lo.toNat := by
  have := lo.isLt
  rw [nField_eq, append_4_12_toNat, append_4_8_toNat, append_4_4_toNat]
  omega

/-! ### A word put together from its own fields -/

theorem nField_lt (w : Word) : nField w < 16 := by
  rw [nField_eq]; omega

/-- The low twelve bits are `X` followed by `NN` (R71). -/
theorem regBits_xField_append_nnField (w : Word) : regBits (xField w) ++ nnField w = nnnField w := by
  apply BitVec.eq_of_toNat_eq
  rw [append_4_8_toNat, regBits_toNat, xField_eq, nnField_eq, nnnField_eq, Fin.val_ofNat, BitVec.toNat_ofNat,
    BitVec.toNat_ofNat]
  omega

/-- The low byte is `Y` followed by `N` (R71). -/
theorem regBits_yField_append_nField (w : Word) : regBits (yField w) ++ BitVec.ofNat 4 (nField w) = nnField w := by
  apply BitVec.eq_of_toNat_eq
  rw [append_4_4_toNat, regBits_toNat, yField_eq, nnField_eq, nField_eq, Fin.val_ofNat, BitVec.toNat_ofNat,
    BitVec.toNat_ofNat]
  omega

/-! ### What a word decodes to -/

/-- R74: the decoder reads the instruction of family 1, 6, 7, A or D from the word's fields, and `CLS` from its one word,
which is of family 0. -/
theorem decodeWord_eq_ok_iff {w : Word} {i : Instr} :
    decodeWord w = .ok i ↔
      (w = 0x00E0#16 ∧ i = .cls) ∨
      (opField w = 0x1#4 ∧ i = .jp (nnnField w)) ∨
      (opField w = 0x6#4 ∧ i = .ldVxNn (xField w) (nnField w)) ∨
      (opField w = 0x7#4 ∧ i = .addVxNn (xField w) (nnField w)) ∨
      (opField w = 0xA#4 ∧ i = .ldINnn (nnnField w)) ∨
      (opField w = 0xD#4 ∧ i = .drw (xField w) (yField w) (nField w)) := by
  have hcls : w = 0x00E0#16 → opField w = 0x0#4 := by rintro rfl; decide
  unfold decodeWord
  constructor
  · intro h
    split_ifs at h <;> cases h <;> simp [*]
  · rintro (⟨hw, rfl⟩ | ⟨hop, rfl⟩ | ⟨hop, rfl⟩ | ⟨hop, rfl⟩ | ⟨hop, rfl⟩ | ⟨hop, rfl⟩)
    · exact if_pos hw
    all_goals
      rw [if_neg fun hw => absurd (hop.symm.trans (hcls hw)) (by decide), hop]
      rfl

/-- Settles O1: the word of an instruction has the instruction's family, and its fields are the operands. -/
theorem decodeOfEncodeIsInstruction : Obligations.DecodeOfEncodeIsInstruction := by
  intro i hi
  rw [decodeWord_eq_ok_iff]
  cases i with
  | cls => exact .inl ⟨rfl, rfl⟩
  | jp nnn => exact .inr (.inl ⟨opField_append _ _, by rw [encode, nnnField_append]⟩)
  | ldVxNn x nn =>
    exact .inr (.inr (.inl ⟨opField_append _ _, by rw [encode, xField_append, nnField_append]⟩))
  | addVxNn x nn =>
    exact .inr (.inr (.inr (.inl ⟨opField_append _ _, by rw [encode, xField_append, nnField_append]⟩)))
  | ldINnn nnn =>
    exact .inr (.inr (.inr (.inr (.inl ⟨opField_append _ _, by rw [encode, nnnField_append]⟩))))
  | drw x y n =>
    have hn : n < 16 := of_decide_eq_true hi
    refine .inr (.inr (.inr (.inr (.inr ⟨opField_append _ _, ?_⟩))))
    rw [encode, xField_append, yField_append, nField_append, BitVec.toNat_ofNat, Nat.mod_eq_of_lt hn]

/-- Settles O2: the encoder puts the word together again from the fields that the decoder read. -/
theorem encodeOfDecodeIsWord : Obligations.EncodeOfDecodeIsWord := by
  intro w i h
  have hw : ∀ op, opField w = op → op ++ nnnField w = w := by
    rintro _ rfl
    exact opField_append_nnnField w
  obtain ⟨rfl, rfl⟩ | ⟨hop, rfl⟩ | ⟨hop, rfl⟩ | ⟨hop, rfl⟩ | ⟨hop, rfl⟩ | ⟨hop, rfl⟩ := decodeWord_eq_ok_iff.1 h
  · exact ⟨rfl, rfl⟩
  · exact ⟨rfl, hw _ hop⟩
  · exact ⟨rfl, by rw [encode, regBits_xField_append_nnField, hw _ hop]⟩
  · exact ⟨rfl, by rw [encode, regBits_xField_append_nnField, hw _ hop]⟩
  · exact ⟨rfl, hw _ hop⟩
  · exact ⟨decide_eq_true (nField_lt w),
      by rw [encode, regBits_yField_append_nField, regBits_xField_append_nnField, hw _ hop]⟩

/-- Settles O3: each test and each field of the decoder is its arithmetic on the word's value. -/
theorem decodeFollowsTheFieldSlices : Obligations.DecodeFollowsTheFieldSlices := by
  intro w
  have hcls : w = 0x00E0#16 ↔ w.toNat = 0x00E0 := BitVec.toNat_inj.symm
  simp only [decodeWord, hcls, opField_eq_iff w 0x1 (by decide), opField_eq_iff w 0x6 (by decide),
    opField_eq_iff w 0x7 (by decide), opField_eq_iff w 0xA (by decide), opField_eq_iff w 0xD (by decide),
    xField_eq, yField_eq, nField_eq, nnField_eq, nnnField_eq]

/-! ### The rows of the opcode table -/

theorem opField_and (w m : Word) : opField (w &&& m) = opField w &&& opField m :=
  BitVec.extractLsb'_and

/-- Every mask of the table covers the family, so a selected row has the word's family (R73). -/
theorem opField_pattern_of_selects {w : Word} {r : OpcodeRow} (hr : r ∈ opcodeTable) (h : r.selects w = true) :
    opField r.pattern = opField w := by
  have hmask : ∀ r ∈ opcodeTable, opField r.mask = 0xF#4 := by decide
  rw [← eq_of_beq h, opField_and, hmask r hr]
  exact BitVec.and_allOnes

/-- No two rows of the table have one family (R73). -/
theorem row_eq_of_opField_pattern_eq :
    ∀ r ∈ opcodeTable, ∀ q ∈ opcodeTable, opField r.pattern = opField q.pattern → r = q := by
  decide

theorem decodes_of_selects {w : Word} {r : OpcodeRow} (hr : r ∈ opcodeTable) (h : r.selects w = true) :
    ∃ i, decodeWord w = .ok i := by
  have hop := (opField_pattern_of_selects hr h).symm
  simp only [decodeWord_eq_ok_iff]
  simp only [opcodeTable, List.mem_cons, List.not_mem_nil, or_false] at hr
  obtain rfl | rfl | rfl | rfl | rfl | rfl := hr
  · have hw : w = 0x00E0#16 := BitVec.and_allOnes.symm.trans (eq_of_beq h)
    exact ⟨_, .inl ⟨hw, rfl⟩⟩
  · exact ⟨_, .inr (.inl ⟨hop, rfl⟩)⟩
  · exact ⟨_, .inr (.inr (.inl ⟨hop, rfl⟩))⟩
  · exact ⟨_, .inr (.inr (.inr (.inl ⟨hop, rfl⟩)))⟩
  · exact ⟨_, .inr (.inr (.inr (.inr (.inl ⟨hop, rfl⟩))))⟩
  · exact ⟨_, .inr (.inr (.inr (.inr (.inr ⟨hop, rfl⟩))))⟩

/-- The word of every instruction is on the instruction's own row (R73), the six lemmas of Laws/PerInstr.lean. -/
theorem encode_selects_rowOf (i : Instr) : Laws.EncodeSelectsOwnRow.Statement i := by
  cases i with
  | cls => exact Laws.EncodeSelectsOwnRow.cls
  | jp nnn => exact Laws.EncodeSelectsOwnRow.jp nnn
  | ldVxNn x nn => exact Laws.EncodeSelectsOwnRow.ldVxNn x nn
  | addVxNn x nn => exact Laws.EncodeSelectsOwnRow.addVxNn x nn
  | ldINnn nnn => exact Laws.EncodeSelectsOwnRow.ldINnn nnn
  | drw x y n => exact Laws.EncodeSelectsOwnRow.drw x y n

/-- A word that decodes is the decoded instruction's own word (O2), so it is on that instruction's row. -/
theorem rowOf_selects_of_decodeWord {w : Word} {i : Instr} (h : decodeWord w = .ok i) :
    rowOf i ∈ opcodeTable ∧ (rowOf i).selects w = true := by
  obtain ⟨-, rfl⟩ := encodeOfDecodeIsWord w i h
  exact (encode_selects_rowOf i).symm

/-- Settles O4: a decoded word is on its instruction's row, a word on a row decodes, and rows are told apart by their
families. -/
theorem decodedWordsSelectOneRow : Obligations.DecodedWordsSelectOneRow := by
  refine ⟨fun w => ⟨fun ⟨i, h⟩ => ⟨rowOf i, rowOf_selects_of_decodeWord h⟩, fun ⟨r, hr, h⟩ => decodes_of_selects hr h⟩,
    fun w r hr q hq hrw hqw => ?_, fun w i h => rowOf_selects_of_decodeWord h⟩
  exact row_eq_of_opField_pattern_eq r hr q hq
    ((opField_pattern_of_selects hr hrw).trans (opField_pattern_of_selects hq hqw).symm)

end Sys2Proof.Machine
end

section
/-! PROOFS. Control flow: the fetch, the outcomes of a step, the word of no row and the jump (spec/40_control_flow.md
R100 to R114, spec/60_exceptions.md R160 to R164). -/

namespace Sys2Proof.Machine

/-! ### The frame of a `PC` write, and runs that stay where they are -/

/-- Writing `PC`, as the fetch and the jump do, leaves alone what no instruction writes (R24). -/
theorem setPc_unwrittenKept (s : State) (w : Word) : UnwrittenKept s (s.setPc w) :=
  ⟨State.setPc_byte s w, rfl, rfl, rfl, rfl⟩

/-- The host's step, read off the step with its outcome. -/
theorem step_of_stepResult_eq {s t : State} {o : StepOutcome} (h : stepResult s = ⟨t, o⟩) : step s = .next t := by
  rw [step_eq_answer_stepResult, h]; rfl

/-- A state that one step leaves unchanged is left unchanged by any number of steps. -/
theorem run_of_step_eq_self {M : Host.Core} {s : M.State} (h : M.step s = .next s) (k : Nat) :
    M.run k s = .next s := by
  induction k with
  | zero => rfl
  | succ k ih =>
    rw [Host.Core.run, h]
    exact ih

/-- A step that returns `Ok` and the same state does so any number of times. -/
theorem runOk_of_stepResult_eq_complete {s : State} (h : stepResult s = complete s) (k : Nat) : RunOk k s := by
  induction k with
  | zero => trivial
  | succ k ih =>
    rw [RunOk, StepOk, h]
    exact ⟨rfl, ih⟩

/-! ### The outcomes of a step -/

/-- An instruction completes or, if it is a draw beyond memory, raises `OutOfBounds` and writes nothing (R102, R145). -/
theorem effect_ok_or_raises (i : Instr) (s : State) :
    (effect i s).outcome = .ok ∨ effect i s = raiseInExecute .outOfBounds s := by
  cases i with
  | drw x y n =>
    obtain ⟨-, k, -, hk⟩ | ⟨-, he⟩ := drwEffect_cases x y n s
    · exact .inl (congrArg Result.outcome hk)
    · exact .inr he
  | _ => exact .inl rfl

/-- The ways a step can end: an error of the fetch, `Ok`, or one of two errors of the execute phase (R100 to R103). -/
theorem stepResult_outcome_cases (s : State) :
    (0xFFF ≤ s.pc.toNat ∧ stepResult s = raiseInFetch .outOfBounds s) ∨
    (s.pc.toNat ≤ 0xFFE ∧ ((stepResult s).outcome = .ok ∨
      ∃ e, (e = .outOfBounds ∨ e = .unknownInstruction) ∧ stepResult s = raiseInExecute e s.advancePc)) := by
  obtain hfetch | ⟨w, hw, ⟨i, -, hr⟩ | ⟨-, hr⟩⟩ := stepResult_cases s
  · exact .inl hfetch
  · refine .inr ⟨Nat.le_of_succ_le_succ hw.1, ?_⟩
    rw [hr]
    exact (effect_ok_or_raises i s.advancePc).imp_right fun he => ⟨.outOfBounds, .inl rfl, he⟩
  · exact .inr ⟨Nat.le_of_succ_le_succ hw.1, .inr ⟨.unknownInstruction, .inr rfl, hr⟩⟩

/-- A word of no row does not decode (R74), for a decoded word is on its instruction's row. -/
theorem decodeWord_eq_error_of_no_row {w : Word} (h : ∀ r ∈ opcodeTable, r.selects w = false) :
    ∃ e, decodeWord w = .error e := by
  cases hd : decodeWord w with
  | error e => exact ⟨e, rfl⟩
  | ok i =>
    obtain ⟨hmem, hsel⟩ := rowOf_selects_of_decodeWord hd
    exact absurd ((h _ hmem).symm.trans hsel) Bool.false_ne_true

/-- Settles O6: below 0xFFF both bytes are read; from 0xFFF upward the step is a fixed point. -/
theorem fetchAdvancesOrLocks : Obligations.FetchAdvancesOrLocks := by
  intro s
  constructor
  · intro hp
    have hp' : s.pc.toNat + 1 ≤ 0xFFF := Nat.succ_le_succ hp
    have hpc := advancePc_pc_toNat hp'
    exact ⟨_, s.advancePc, fetch_ok hp', wordOfBytes_toNat _ _, hpc, by omega, State.advancePc_readV s, rfl, rfl,
      setPc_unwrittenKept s _⟩
  · intro hp
    have hr := stepResult_of_pc_high hp
    exact ⟨fetch_error hp, hr, run_of_step_eq_self (step_of_stepResult_eq hr)⟩

/-- Settles O8: a word of no row does not decode, and the unknown effect keeps the state after the fetch. -/
theorem unknownWordIsSkipped : Obligations.UnknownWordIsSkipped := by
  intro s w hw hrow
  obtain ⟨e, hd⟩ := decodeWord_eq_error_of_no_row hrow
  have hr := stepResult_of_unknown hw hd
  exact ⟨s.advancePc, step_of_stepResult_eq hr, hr, advancePc_pc_toNat hw.1, State.advancePc_readV s, rfl, rfl,
    setPc_unwrittenKept s _⟩

/-- Settles O9: of the ways a step can end, the two that are errors. -/
theorem errorsArePrecise : Obligations.ErrorsArePrecise := by
  intro s e he
  obtain ⟨hp, hr⟩ | ⟨hp, hok | ⟨e', -, hr⟩⟩ := stepResult_outcome_cases s
  · rw [hr] at he
    cases he
    exact .inl ⟨hp, rfl, step_of_stepResult_eq hr, congrArg Result.state hr⟩
  · simp [hok] at he
  · exact .inr ⟨hp, step_of_stepResult_eq hr, congrArg Result.state hr⟩

/-- Settles O11: every way a step can end leaves a state, with one of the three outcomes. -/
theorem everyStepAnswersNext : Obligations.EveryStepAnswersNext := by
  intro s
  refine ⟨(stepResult s).state, (stepResult s).outcome, step_eq_answer_stepResult s, rfl, ?_⟩
  obtain ⟨-, hr⟩ | ⟨-, hok | ⟨e, rfl | rfl, hr⟩⟩ := stepResult_outcome_cases s
  · exact .inr (.inl (congrArg Result.outcome hr))
  · exact .inl hok
  · exact .inr (.inl (congrArg Result.outcome hr))
  · exact .inr (.inr (congrArg Result.outcome hr))

/-- Settles O7: the state after the fetch is the one with `PC` advanced by 2. -/
theorem stepRunsTheDecodedInstruction : Obligations.StepRunsTheDecodedInstruction := by
  intro s w i hw hd
  have hr : stepResult s = effect i (s.setPc (s.pc + 2)) := stepResult_of_decode hw hd
  exact ⟨by rw [step_eq_answer_stepResult, hr, exec_eq_answer_effect], hr⟩

/-! ### The jump -/

theorem decodeWord_jp (nnn : BitVec 12) : decodeWord (0x1#4 ++ nnn) = .ok (.jp nnn) :=
  decodeOfEncodeIsInstruction (.jp nnn) rfl

/-- A word written as a number, from its family and its low twelve bits (R71). -/
theorem ofNat_eq_append (op : BitVec 4) (low : BitVec 12) :
    BitVec.ofNat 16 (op.toNat * 4096 + low.toNat) = op ++ low := by
  rw [← append_4_12_toNat, BitVec.ofNat_toNat, BitVec.setWidth_eq]

/-- A jump whose target is its own address undoes the fetch advance (R110, R114). -/
theorem stepResult_jump_to_itself {s : State} {nnn : BitVec 12} (hw : WordAtPc s (0x1#4 ++ nnn))
    (hp : s.pc.toNat = nnn.toNat) : stepResult s = complete s := by
  have hpc : zext16 nnn = s.pc := BitVec.eq_of_toNat_eq ((zext16_toNat nnn).trans hp.symm)
  calc stepResult s = complete (s.setPc (zext16 nnn)) := stepResult_of_decode hw (decodeWord_jp nnn)
    _ = complete s := by rw [hpc]; rfl

/-- Settles O12: the jump to itself is a fixed point of the step with outcome `Ok`. -/
theorem jumpToItselfIdles : Obligations.JumpToItselfIdles := by
  intro s nnn hw hp k
  have hr := stepResult_jump_to_itself hw hp
  exact ⟨run_of_step_eq_self (step_of_stepResult_eq hr) k, runOk_of_stepResult_eq_complete hr k⟩

/-- Settles O13: the jump writes the zero-extended NNN to `PC`, and `PC` alone. -/
theorem jumpSetsPcToNnn : Obligations.JumpSetsPcToNnn := by
  intro nnn s
  have hword : BitVec.ofNat 16 (0x1000 + nnn.toNat) = 0x1#4 ++ nnn := ofNat_eq_append 0x1#4 nnn
  have hpc : (s.setPc (zext16 nnn)).pc.toNat = nnn.toNat := zext16_toNat nnn
  exact ⟨hword ▸ decodeWord_jp nnn, s.setPc (zext16 nnn), rfl, rfl, fun _ => rfl, hpc,
    by have := nnn.isLt; omega, State.setPc_readV s _, rfl, rfl, setPc_unwrittenKept s _⟩

end Sys2Proof.Machine
end

section
/-! PROOFS. The register instructions 6XNN, 7XNN and ANNN: word, result, outcome and frame (spec/41_register_ops.md
R120 to R123). -/

namespace Sys2Proof.Machine

/-- A word written as a number decodes to the instruction whose encoding has that value (R73). -/
theorem decodeWord_ofNat_of_encode_toNat {n : Nat} {i : Instr} (hi : i.wellFormed = true) (h : (encode i).toNat = n) :
    decodeWord (BitVec.ofNat 16 n) = .ok i := by
  rw [← h, BitVec.ofNat_toNat, BitVec.setWidth_eq]
  exact decodeOfEncodeIsInstruction i hi

/-- No instruction writes memory, the timers, the stack or the key latch (R50, R25, R26, R31, R34). -/
theorem InstrWrites.unwrittenKept {i : Instr} {s t : State} (h : InstrWrites s i t) : UnwrittenKept s t where
  bytes a := congrArg (Memory.read · a) h.mem_eq
  dt := h.dt_eq
  st := h.st_eq
  stack := h.stack_eq
  keys := h.keys_eq

/-- The sum wraps at 256, and no carry is kept (R120). -/
theorem add8_toNat (a b : Byte) : (add8 a b).toNat = (a.toNat + b.toNat) % 256 := BitVec.toNat_add a b

/-- Settles O14: the effect is one register write. -/
theorem loadImmediateWritesVx : Obligations.LoadImmediateWritesVx := by
  intro x nn s
  exact ⟨decodeWord_ofNat_of_encode_toNat rfl (encode_toNat (.ldVxNn x nn)), s.setV x nn, rfl, rfl,
    s.setV_readV_self x nn, fun _ hk => s.setV_readV_ne hk nn, rfl, rfl, rfl, (InstrWrites.ldVxNn x nn).unwrittenKept⟩

/-- Settles O15: the effect is one register write, of the sum. -/
theorem addImmediateWrapsWithoutCarry : Obligations.AddImmediateWrapsWithoutCarry := by
  intro x nn s
  have hsum : ((s.setV x (add8 (s.readV x) nn)).readV x).toNat = ((s.readV x).toNat + nn.toNat) % 256 := by
    rw [State.setV_readV_self, add8_toNat]
  exact ⟨decodeWord_ofNat_of_encode_toNat rfl (encode_toNat (.addVxNn x nn)), s.setV x (add8 (s.readV x) nn), rfl, rfl,
    hsum, fun _ hk => s.setV_readV_ne hk _, rfl, rfl, rfl, (InstrWrites.addVxNn x nn).unwrittenKept⟩

/-- Settles O16: the effect writes the zero-extended NNN to `I`, and `I` alone. -/
theorem loadIndexSetsI : Obligations.LoadIndexSetsI := by
  intro nnn s
  have hi : (s.setI (zext16 nnn)).i.toNat = nnn.toNat := zext16_toNat nnn
  have htop : (s.setI (zext16 nnn)).i.toNat / 4096 = 0 := by
    rw [hi, Nat.div_eq_of_lt nnn.isLt]
  exact ⟨decodeWord_ofNat_of_encode_toNat rfl (encode_toNat (.ldINnn nnn)), s.setI (zext16 nnn), rfl, rfl,
    fun _ => rfl, hi, htop, State.setI_readV s _, rfl, rfl, (InstrWrites.ldINnn nnn).unwrittenKept⟩

/-- Settles O18: the load (O14) leaves `a` in `V[X]`, to which the addition (O15) adds `b`; a `PC` write between them
reaches no register. -/
theorem loadThenAddLeavesTheSum : Obligations.LoadThenAddLeavesTheSum := by
  intro x a b s p
  obtain ⟨-, t, hload, -, hx, ht, -⟩ := loadImmediateWritesVx x a s
  obtain ⟨-, u, hadd, -, hsum, hu, -⟩ := addImmediateWrapsWithoutCarry x b (t.setPc p)
  refine ⟨t, u, hload, hadd, ?_, fun k hk => ?_⟩
  · rw [hsum, State.setPc_readV, hx]
  · rw [hu k hk, State.setPc_readV, ht k hk]

end Sys2Proof.Machine
end

section
/-! PROOFS. The display instructions: the clear, and the laws of the draw, each from the cells that `Drawn` names
(spec/42_display_ops.md R140 to R149). -/

namespace Sys2Proof.Machine

/-! ### The state that a completed draw leaves -/

/-- The display and VF that the loops of R146 leave. -/
def drawnCanvas (x y : Fin 16) (n : Nat) (s : State) : Canvas :=
  drawRows (spriteRow s) (originX (s.readV x)) (originY (s.readV y)) (rowsDrawn n (originY (s.readV y)))
    (colsDrawn (originX (s.readV x))) ⟨s.disp, noCollision⟩

/-- The state after a draw that passes the check of R145. -/
def drawnState (x y : Fin 16) (n : Nat) (s : State) : State :=
  (s.setDisp (drawnCanvas x y n s).disp).setV flagReg (drawnCanvas x y n s).vf

section
variable {x y : Fin 16} {n : Nat} {s : State}

theorem effect_drw_of_readable (h : SpriteReadable s y n) :
    effect (.drw x y n) s = ⟨drawnState x y n s, .ok⟩ := drwEffect_of_readable h

theorem effect_drw_of_not_readable (h : ¬ SpriteReadable s y n) :
    effect (.drw x y n) s = ⟨s, .error .outOfBounds⟩ := drwEffect_of_not_readable h

theorem exec_of_effect_eq {i : Instr} {t : State} {o : StepOutcome} (h : effect i s = ⟨t, o⟩) :
    exec i s = .next t := by
  rw [exec_eq_answer_effect, h]; rfl

theorem exists_row_beyond_memory_of_not_readable (h : ¬ SpriteReadable s y n) :
    ∃ r, r < min n (32 - (s.readV y).toNat % 32) ∧ 0xFFF < s.i.toNat + r := by
  simpa only [SpriteReadable, not_forall, not_le, exists_prop] using h

/-- A drawn column is on the grid: the origin is, and the clipping of R144 stops at the right edge. -/
theorem originX_add_colsDrawn_le (vx : Byte) : originX vx + colsDrawn (originX vx) ≤ 64 := by
  have : originX vx < 64 := Nat.mod_lt _ (by decide)
  unfold colsDrawn; omega

/-- A drawn row is on the grid: the origin is, and the clipping of R144 stops at the bottom edge. -/
theorem originY_add_rowsDrawn_le (n : Nat) (vy : Byte) : originY vy + rowsDrawn n (originY vy) ≤ 32 := by
  have : originY vy < 32 := Nat.mod_lt _ (by decide)
  unfold rowsDrawn; omega

/-- The cells of `Drawn` are those that the loops of R146 hit. -/
theorem drawn_iff_spriteHit {px py : Nat} : Drawn s x y n px py ↔
    SpriteHit (spriteRow s) (originX (s.readV x)) (originY (s.readV y)) (rowsDrawn n (originY (s.readV y)))
      (colsDrawn (originX (s.readV x))) px py :=
  ⟨fun ⟨r, c, hr, hc, h⟩ => ⟨r, hr, c, hc, h⟩, fun ⟨r, hr, c, hc, h⟩ => ⟨r, c, hr, hc, h⟩⟩

theorem drawnState_cell_of_drawn {px py : Nat} (h : Drawn s x y n px py) :
    (drawnState x y n s).cell px py = !s.cell px py :=
  (drawRows_cell _ _ _ _ (originX_add_colsDrawn_le _) _ _ _ _ (originY_add_rowsDrawn_le n _)).trans
    (if_pos (drawn_iff_spriteHit.1 h))

theorem drawnState_cell_of_not_drawn {px py : Nat} (h : ¬ Drawn s x y n px py) :
    (drawnState x y n s).cell px py = s.cell px py :=
  (drawRows_cell _ _ _ _ (originX_add_colsDrawn_le _) _ _ _ _ (originY_add_rowsDrawn_le n _)).trans
    (if_neg (mt drawn_iff_spriteHit.2 h))

theorem drawnState_flag : (drawnState x y n s).readV 15 = (drawnCanvas x y n s).vf :=
  State.setV_readV_self _ flagReg _

/-- VF after a draw in which some drawn pixel meets a cell that was on (R147). -/
theorem drawnState_flag_of_collision (h : ∃ px py, Drawn s x y n px py ∧ s.cell px py = true) :
    (drawnState x y n s).readV 15 = 1 := by
  obtain ⟨px, py, hd, hon⟩ := h
  rw [drawnState_flag, drawnCanvas,
    drawRows_vf _ _ _ _ (originX_add_colsDrawn_le _) _ _ (originY_add_rowsDrawn_le n _)]
  exact if_pos ⟨px, py, drawn_iff_spriteHit.1 hd, hon⟩

/-- VF after a draw whose pixels all meet cells that were off (R147). -/
theorem drawnState_flag_of_no_collision (h : ∀ px py, Drawn s x y n px py → s.cell px py = false) :
    (drawnState x y n s).readV 15 = 0 := by
  rw [drawnState_flag, drawnCanvas,
    drawRows_vf _ _ _ _ (originX_add_colsDrawn_le _) _ _ (originY_add_rowsDrawn_le n _)]
  refine if_neg ?_
  rintro ⟨px, py, hd, hon⟩
  exact Bool.false_ne_true ((h px py (drawn_iff_spriteHit.2 hd)).symm.trans hon)

theorem drawnState_readV_ne {k : Fin 16} (hk : k ≠ 15) : (drawnState x y n s).readV k = s.readV k :=
  State.setV_readV_ne _ hk _

theorem drawnState_unwrittenKept : UnwrittenKept s (drawnState x y n s) :=
  (InstrWrites.drwDone x y n _ _).unwrittenKept

end

/-! ### The clear -/

/-- Settles O17: the effect writes the blank display, and the display alone. -/
theorem clearTurnsEveryCellOff : Obligations.ClearTurnsEveryCellOff := by
  intro s
  exact ⟨decodeOfEncodeIsInstruction .cls rfl, s.setDisp Display.blank, rfl, rfl, fun _ => rfl,
    fun px py _ _ => Display.blank_cell px py, State.setDisp_readV s _, rfl, rfl, InstrWrites.cls.unwrittenKept⟩

/-! ### One draw -/

/-- Settles O19: the cells, the flag and the frame of the state that a completed draw leaves. -/
theorem drawFlipsTheSpriteCells : Obligations.DrawFlipsTheSpriteCells := by
  intro x y n s h
  have he := effect_drw_of_readable (x := x) h
  have hdistinct : ∀ x0 y0 r c r' c' : Nat, (x0 + c, y0 + r) = (x0 + c', y0 + r') → r = r' ∧ c = c' := by
    intro x0 y0 r c r' c' heq
    obtain ⟨hx, hy⟩ := Prod.mk.inj heq
    exact ⟨Nat.add_left_cancel hy, Nat.add_left_cancel hx⟩
  exact ⟨drawnState x y n s, exec_of_effect_eq he, he, drawnState_flag_of_collision, drawnState_flag_of_no_collision,
    fun _ _ => drawnState_cell_of_drawn, fun _ _ => drawnState_cell_of_not_drawn, hdistinct,
    fun _ => drawnState_readV_ne, rfl, rfl, drawnState_unwrittenKept⟩

/-- Settles O20: a drawn row beyond memory fails the check, and the check is the only way to fail. -/
theorem drawBeyondMemoryHasNoEffect : Obligations.DrawBeyondMemoryHasNoEffect := by
  intro x y n s
  constructor
  · rintro ⟨r, hr, hbeyond⟩
    have he := effect_drw_of_not_readable (x := x) fun h : SpriteReadable s y n => absurd (h r hr) hbeyond.not_ge
    exact ⟨exec_of_effect_eq he, he⟩
  · intro h
    rw [effect_drw_of_readable h]

/-- Settles O24: the clipping bounds the cells; an error means that the check of the sprite's rows failed. -/
theorem drawStaysOnTheGrid : Obligations.DrawStaysOnTheGrid := by
  intro x y n s
  refine ⟨fun r c hr hc => ?_, fun e he => ?_⟩
  · have hx := originX_add_colsDrawn_le (s.readV x)
    have hy := originY_add_rowsDrawn_le n (s.readV y)
    omega
  · by_cases h : SpriteReadable s y n
    · rw [effect_drw_of_readable h] at he
      cases he
    · rw [effect_drw_of_not_readable h] at he
      cases he
      obtain ⟨r, hr, hbeyond⟩ := exists_row_beyond_memory_of_not_readable h
      exact ⟨rfl, r, lt_of_lt_of_le hr (Nat.min_le_left _ _), hbeyond⟩

/-- With no rows the check passes, the loops do nothing and only the clear of VF is left (decision D9). -/
theorem effect_drw_zero (x y : Fin 16) (s : State) : effect (.drw x y 0) s = ⟨s.setV 15 0, .ok⟩ := by
  have hrows : rowsDrawn 0 (originY (s.readV y)) = 0 := Nat.zero_min _
  have hcanvas : drawnCanvas x y 0 s = ⟨s.disp, noCollision⟩ := by rw [drawnCanvas, hrows, drawRows_zero]
  rw [effect_drw_of_readable fun r hr => absurd hr (by omega), drawnState, hcanvas]
  rfl

/-- Settles O21: the effect is one register write, of 0 to VF. -/
theorem drawOfHeightZeroOnlyClearsVf : Obligations.DrawOfHeightZeroOnlyClearsVf := by
  intro x y s
  have he := effect_drw_zero x y s
  exact ⟨s.setV 15 0, exec_of_effect_eq he, he, fun m => effect_drw_zero x y (s.setMem m), s.setV_readV_self 15 0,
    State.setV_cell s 15 0, fun _ hk => s.setV_readV_ne hk 0, rfl, rfl,
    (InstrWrites.drwDone x y 0 s.disp 0).unwrittenKept⟩

/-! ### What a draw reads of memory -/

/-- The row loop reads the sprite at the rows that it draws and nowhere else. -/
theorem drawRows_congr {sp sp' : Nat → Byte} {rows : Nat} (h : ∀ r < rows, sp r = sp' r) (x0 y0 cols : Nat)
    (k : Canvas) : drawRows sp x0 y0 rows cols k = drawRows sp' x0 y0 rows cols k := by
  induction rows with
  | zero => rfl
  | succ rows ih =>
    rw [drawRows_succ, drawRows_succ, h rows (Nat.lt_succ_self rows), ih fun r hr => h r (Nat.lt_succ_of_lt hr)]

/-- Settles O25: the check reads no byte, and the row loop those of the drawn rows. -/
theorem drawReadsOnlyTheDrawnRows : Obligations.DrawReadsOnlyTheDrawnRows := by
  intro x y n s m hagree
  by_cases h : SpriteReadable s y n
  · have hcanvas : drawnCanvas x y n (s.setMem m) = drawnCanvas x y n s := drawRows_congr hagree _ _ _ _
    rw [effect_drw_of_readable h, effect_drw_of_readable (s := s.setMem m) h, drawnState, hcanvas]
    rfl
  · rw [effect_drw_of_not_readable h, effect_drw_of_not_readable (s := s.setMem m) h]

/-! ### Two draws in succession -/

/-- A draw that names VF in neither coordinate leaves the cells that it draws the same (R143). -/
theorem drawn_drawnState_iff {x y : Fin 16} (hx : x ≠ 15) (hy : y ≠ 15) (n : Nat) (s : State) (p : Word) (px py : Nat) :
    Drawn ((drawnState x y n s).setPc p) x y n px py ↔ Drawn s x y n px py := by
  simp only [Drawn, State.setPc_readV, drawnState_readV_ne hx, drawnState_readV_ne hy, State.setPc_byte,
    drawnState_unwrittenKept.bytes]
  rfl

/-- Settles O22: the second draw draws the same cells, so each is flipped twice; a cell that it finds on was off before
the first draw. -/
theorem drawTwiceRestoresTheDisplay : Obligations.DrawTwiceRestoresTheDisplay := by
  intro x y n s p hx hy h
  let t := drawnState x y n s
  have hdrawn := drawn_drawnState_iff hx hy n s p
  have hreadable : SpriteReadable (t.setPc p) y n := by
    have hvy : (t.setPc p).readV y = s.readV y := drawnState_readV_ne hy
    rw [SpriteReadable, hvy]; exact h
  have he := effect_drw_of_readable (x := x) hreadable
  refine ⟨t, drawnState x y n (t.setPc p), effect_drw_of_readable h, he, exec_of_effect_eq he, ?_, ?_, ?_⟩
  · refine Display.ext_cell fun px py _ _ => ?_
    by_cases hd : Drawn s x y n px py
    · calc (drawnState x y n (t.setPc p)).cell px py
        _ = !t.cell px py := drawnState_cell_of_drawn ((hdrawn px py).2 hd)
        _ = s.cell px py := by rw [drawnState_cell_of_drawn hd, Bool.not_not]
    · calc (drawnState x y n (t.setPc p)).cell px py
        _ = t.cell px py := drawnState_cell_of_not_drawn (mt (hdrawn px py).1 hd)
        _ = s.cell px py := drawnState_cell_of_not_drawn hd
  · rintro ⟨px, py, hd, hoff⟩
    have hon : t.cell px py = true := by rw [drawnState_cell_of_drawn hd, hoff]; rfl
    exact drawnState_flag_of_collision ⟨px, py, (hdrawn px py).2 hd, hon⟩
  · intro hall
    refine drawnState_flag_of_no_collision fun px py hd => ?_
    have hd' := (hdrawn px py).1 hd
    show t.cell px py = false
    rw [drawnState_cell_of_drawn hd', hall px py hd']; rfl

/-- `VF = 1` and `I` at the font's glyph 0, whose first row is 0xF0: a draw through VF starts at coordinate 1, clears
VF, and starts the second time at coordinate 0. -/
def flagAsCoordinate : State := (State.reset.setI 0x050).setV 15 1

theorem flagAsCoordinate_readable (y : Fin 16) : SpriteReadable flagAsCoordinate y 1 := by
  intro r hr
  have hi : flagAsCoordinate.i.toNat = 0x050 := rfl
  omega

/-- Settles O23: with X = F and with Y = F the two draws leave the cell (0, 0) on, which was off. -/
theorem drawTwiceThroughVfNeedNotRestore : Obligations.DrawTwiceThroughVfNeedNotRestore := by
  have hbefore : flagAsCoordinate.cell 0 0 = false := Display.blank_cell 0 0
  have hdiffers : ∀ t : State, t.cell 0 0 = true → t.disp ≠ flagAsCoordinate.disp := by
    intro t ht heq
    exact Bool.false_ne_true (hbefore.symm.trans ((congrArg (Display.cell · 0 0) heq).symm.trans ht))
  exact ⟨⟨0, 1, flagAsCoordinate, by decide, flagAsCoordinate_readable 0, hdiffers _ (by decide)⟩,
    ⟨0, 1, flagAsCoordinate, by decide, flagAsCoordinate_readable 15, hdiffers _ (by decide)⟩⟩

end Sys2Proof.Machine
end

section
/-! PROOFS. What every sequence of driver operations keeps: the invariant, and the empty stack with both timers at 0
(spec/60_exceptions.md R172, R176; spec/10_state.md R25, R26, R31). -/

namespace Sys2Proof.Machine

/-- Settles O48: each operation keeps the invariant, so by induction every sequence of them does. -/
theorem operationsKeepTheInvariant : Obligations.OperationsKeepTheInvariant := by
  intro depth ops s h
  exact runOps_keeps (fun op _ hs => hs.after_perform op) ops h

/-! ### The tick -/

/-- A timer goes down by 1 and stops at 0, which is the truncated subtraction of natural numbers (R170). -/
theorem countDown_toNat (t : Byte) : (countDown t).toNat = t.toNat - 1 := by
  unfold countDown
  split
  · bv_omega
  · bv_omega

@[simp] theorem countDown_zero : countDown 0 = 0 := rfl

/-- A tick with both timers at 0 does nothing (R170). -/
theorem tick_eq_self {s : State} (hdt : s.dt = 0) (hst : s.st = 0) : tick s = s :=
  State.ext_fields rfl rfl rfl rfl (by rw [tick_dt, hdt, countDown_zero]) (by rw [tick_st, hst, countDown_zero])
    rfl rfl rfl

/-- Settles O41: each timer's value after the tick is its value before, less 1 in the natural numbers; the rest is the
frame of the timers' write. -/
theorem tickCountsDownToZero : Obligations.TickCountsDownToZero := by
  intro s
  have hdt : (tick s).dt.toNat = s.dt.toNat - 1 := countDown_toNat s.dt
  have hst : (tick s).st.toNat = s.st.toNat - 1 := countDown_toNat s.st
  exact ⟨fun _ => hdt, fun h => by omega, fun _ => hst, fun h => by omega, State.setTimers_readV s _ _, rfl, rfl, rfl,
    rfl, rfl, State.setTimers_byte s _ _, rfl⟩

/-! ### The empty stack and the timers at 0 -/

/-- Settles O53: a step writes neither the stack nor a timer, and a tick leaves a timer at 0 where it is. -/
theorem operationsKeepTimersAndStackReset : Obligations.OperationsKeepTimersAndStackReset := by
  rintro op s ⟨hstack, hdt, hst⟩
  cases op with
  | step =>
    obtain ⟨hdt', hst', -⟩ := stepResult_devices_eq s
    obtain ⟨-, hstack'⟩ := stepResult_mem_stack_eq s
    exact ⟨hstack'.trans hstack, hdt'.trans hdt, hst'.trans hst⟩
  | tick =>
    have hself : (perform .tick s).2 = s := tick_eq_self hdt hst
    rw [hself]
    exact ⟨hstack, hdt, hst⟩
  | setKeys mask => exact ⟨hstack, hdt, hst⟩
  | snapshot => exact ⟨hstack, hdt, hst⟩
  | sound => exact ⟨hstack, hdt, hst⟩

/-- A constructed machine differs from the reset state in its memory alone (R191). -/
theorem eq_reset_setMem_of_construct {cfg : Config} {program : List Byte} {m : State}
    (h : construct cfg program = .ok m) : m = State.reset.setMem (initialMemory cfg.font program) := by
  obtain ⟨-, hc⟩ | ⟨-, hc⟩ := construct_cases cfg program
  · cases hc.symm.trans h
  · cases hc.symm.trans h; rfl

/-- No step pushes or pops, so none returns a stack error (R31, R163). -/
theorem stepResult_outcome_ne_stack_error (s : State) :
    (stepResult s).outcome ≠ .error .stackOverflow ∧ (stepResult s).outcome ≠ .error .stackUnderflow := by
  obtain ⟨t, o, -, hr, ho⟩ := everyStepAnswersNext s
  rw [hr]
  obtain rfl | rfl | rfl := ho <;> simp

/-- Settles O50: `construct` leaves the stack empty and the timers at 0, and every operation keeps them so (O53). -/
theorem reachableTimersAndStackStayReset : Obligations.ReachableTimersAndStackStayReset := by
  intro cfg s h
  obtain ⟨hstack, hdt, hst⟩ : s.stack = [] ∧ s.dt = 0 ∧ s.st = 0 :=
    h.of_keeps (fun _ _ hc => by rw [eq_reset_setMem_of_construct hc]; exact ⟨rfl, rfl, rfl⟩)
      operationsKeepTimersAndStackReset
  have htone : toneOn s = false := by rw [toneOn, sound, hst]; rfl
  exact ⟨hstack, hdt, hst, hst, htone, tick_eq_self hdt hst, stepResult_outcome_ne_stack_error s⟩

end Sys2Proof.Machine
end

section
/-! PROOFS. Which outcome a step returns, as a condition on the state before it (spec/60_exceptions.md R160, R163). -/

namespace Sys2Proof.Machine

/-- The one error of an instruction is that of a draw with a drawn row beyond memory (R145). -/
theorem effect_outcome_eq_error_iff (i : Instr) (s : State) (e : Fault) :
    (effect i s).outcome = .error e ↔ e = .outOfBounds ∧ ∃ x y n, i = .drw x y n ∧ ¬ SpriteReadable s y n := by
  constructor
  · intro he
    cases i with
    | drw x y n =>
      by_cases h : SpriteReadable s y n
      · rw [effect_drw_of_readable h] at he; cases he
      · rw [effect_drw_of_not_readable h] at he; cases he
        exact ⟨rfl, x, y, n, rfl, h⟩
    | _ => cases he
  · rintro ⟨rfl, x, y, n, rfl, h⟩
    rw [effect_drw_of_not_readable h]

theorem stepResult_outcome_eq_outOfBounds_iff (s : State) :
    (stepResult s).outcome = .error .outOfBounds ↔
      0xFFF ≤ s.pc.toNat ∨
      ∃ w x y n, WordAtPc s w ∧ decodeWord w = .ok (.drw x y n) ∧ ¬ SpriteReadable s y n := by
  constructor
  · intro he
    obtain ⟨hp, -⟩ | ⟨w, hw, ⟨i, hd, hr⟩ | ⟨-, hr⟩⟩ := stepResult_cases s
    · exact .inl hp
    · rw [hr] at he
      obtain ⟨-, x, y, n, rfl, hn⟩ := (effect_outcome_eq_error_iff i s.advancePc _).1 he
      exact .inr ⟨w, x, y, n, hw, hd, hn⟩
    · rw [hr] at he; cases he
  · rintro (hp | ⟨w, x, y, n, hw, hd, hn⟩)
    · rw [stepResult_of_pc_high hp]; rfl
    · rw [stepResult_of_decode hw hd]
      exact (effect_outcome_eq_error_iff _ s.advancePc _).2 ⟨rfl, x, y, n, rfl, hn⟩

theorem stepResult_outcome_eq_unknownInstruction_iff (s : State) :
    (stepResult s).outcome = .error .unknownInstruction ↔
      ∃ w, WordAtPc s w ∧ ∀ r ∈ opcodeTable, r.selects w = false := by
  constructor
  · intro he
    obtain ⟨-, hr⟩ | ⟨w, hw, ⟨i, -, hr⟩ | ⟨⟨e, hd⟩, -⟩⟩ := stepResult_cases s
    · rw [hr] at he; cases he
    · rw [hr] at he
      cases ((effect_outcome_eq_error_iff i s.advancePc _).1 he).1
    · refine ⟨w, hw, fun r hmem => Bool.eq_false_iff.2 fun hsel => ?_⟩
      obtain ⟨i, hi⟩ := decodes_of_selects hmem hsel
      cases hd.symm.trans hi
  · rintro ⟨w, hw, hrow⟩
    obtain ⟨t, -, hr, -⟩ := unknownWordIsSkipped s w hw hrow
    rw [hr]

/-- Settles O10: one equivalence for each error kind that a step can return; it calls no stack primitive. -/
theorem outcomeFollowsThePhases : Obligations.OutcomeFollowsThePhases := fun s =>
  ⟨stepResult_outcome_eq_outOfBounds_iff s, stepResult_outcome_eq_unknownInstruction_iff s,
    stepResult_outcome_ne_stack_error s⟩

end Sys2Proof.Machine
end

section
/-! PROOFS. The reference frame (spec/60_exceptions.md R176). -/

namespace Sys2Proof.Machine

/-- The core's replies come one at a time, in the order of the operations (R60). -/
theorem runOps_append_replies (ops ops' : List DriverOp) (s : State) :
    (runOps (ops ++ ops') s).1 = (runOps ops s).1 ++ (runOps ops' (runOps ops s).2).1 := by
  induction ops generalizing s with
  | nil => rfl
  | cons op ops ih => exact congrArg ((perform op s).1 :: ·) (ih _)

theorem runOps_replicate_step_state (k : Nat) (s : State) :
    (runOps (List.replicate k .step) s).2 = Nat.iterate (fun m => (stepResult m).state) k s := by
  induction k generalizing s with
  | zero => rfl
  | succ k ih => exact ih (stepResult s).state

/-- A run of steps replies with one outcome for each step. -/
theorem runOps_replicate_step_replies (k : Nat) (s : State) :
    ∃ outcomes : List StepOutcome, outcomes.length = k ∧
      (runOps (List.replicate k .step) s).1 = outcomes.map Reply.outcome := by
  induction k generalizing s with
  | zero => exact ⟨[], rfl, rfl⟩
  | succ k ih =>
    obtain ⟨outcomes, hlen, hrun⟩ := ih (stepResult s).state
    exact ⟨(stepResult s).outcome :: outcomes, congrArg Nat.succ hlen,
      congrArg (Reply.outcome (stepResult s).outcome :: ·) hrun⟩

/-- Settles O45: the frame is a run of steps, then four operations whose replies and state are read off. -/
theorem frameRunsTheBudgetThenTicks : Obligations.FrameRunsTheBudgetThenTicks := by
  intro cfg mask s stepped
  obtain ⟨outcomes, hlen, hrun⟩ := runOps_replicate_step_replies cfg.cyclesPerFrame s
  have hstate : (runOps (List.replicate cfg.cyclesPerFrame .step) s).2 = stepped :=
    runOps_replicate_step_state cfg.cyclesPerFrame s
  have hreplies : (runOps (frameOps cfg mask) s).1 = outcomes.map Reply.outcome ++
      [.nothing, .nothing, .pixels (snapshot stepped), .level (countDown stepped.st)] := by
    rw [frameOps, runOps_append_replies, hrun, hstate]; rfl
  refine ⟨?_, ?_, outcomes, hlen, hreplies⟩
  · rw [frameOps, runOps_append, hstate]; rfl
  · rw [hreplies, List.length_append, List.length_map, hlen]; rfl

end Sys2Proof.Machine
end

section
/-! PROOFS. Construction: which images it refuses, what it leaves in memory and elsewhere, and when it leaves the reset
state (spec/70_reset_and_hazards.md R190 to R194). -/

namespace Sys2Proof.Machine

/-! ### Reads after the two loads -/

theorem Memory.load_read_loaded {m : Memory} {base k : Nat} {bs : List Byte} (hk : k < bs.length) (hm : m.wf = true)
    (hfit : base + bs.length ≤ memSize) : (m.load base bs).read (base + k) = bs[k] := by
  rw [Memory.load_read bs (base + k) hm hfit, dif_pos ⟨by omega, by omega⟩]
  simp only [Nat.add_sub_cancel_left]

theorem Memory.load_read_of_not_loaded {m : Memory} {base c : Nat} {bs : List Byte}
    (hc : ¬ (base ≤ c ∧ c < base + bs.length)) (hm : m.wf = true) (hfit : base + bs.length ≤ memSize) :
    (m.load base bs).read c = m.read c := by
  rw [Memory.load_read bs c hm hfit, dif_neg hc]

section InitialMemory

variable {font : Vector Byte fontSize} {program : List Byte}

theorem fontBase_add_length_le (font : Vector Byte fontSize) : fontBase + font.toList.length ≤ memSize := by
  rw [Vector.length_toList]; decide

theorem programBase_add_length_le (hlen : program.length ≤ 3584) : programBase + program.length ≤ memSize := by
  simp only [programBase, memSize]; omega

/-- Off the program the memory holds what the font load left. -/
theorem initialMemory_read_of_not_program (hlen : program.length ≤ 3584) {a : Nat}
    (ha : ¬ (0x200 ≤ a ∧ a < 0x200 + program.length)) :
    (initialMemory font program).read a = (Memory.load [] fontBase font.toList).read a :=
  Memory.load_read_of_not_loaded ha (initialFont_wf font) (programBase_add_length_le hlen)

theorem initialMemory_read_program (hlen : program.length ≤ 3584) {k : Nat} (hk : k < program.length) :
    (initialMemory font program).read (0x200 + k) = program[k] :=
  Memory.load_read_loaded hk (initialFont_wf font) (programBase_add_length_le hlen)

/-- The program load leaves the font, which ends below 0x200. -/
theorem initialMemory_read_font (hlen : program.length ≤ 3584) {k : Nat} (hk : k < 80) :
    (initialMemory font program).read (0x050 + k) = font[k] := by
  have hloaded : (Memory.load [] fontBase font.toList).read (fontBase + k) = font.toList[k]'(by simpa using hk) :=
    Memory.load_read_loaded _ Memory.nil_wf (fontBase_add_length_le font)
  rw [initialMemory_read_of_not_program hlen (by omega)]
  exact hloaded.trans (Vector.getElem_toList _)

theorem initialMemory_read_unloaded (hlen : program.length ≤ 3584) {a : Nat} (hfont : ¬ (0x050 ≤ a ∧ a ≤ 0x09F))
    (hprogram : ¬ (0x200 ≤ a ∧ a < 0x200 + program.length)) :
    (initialMemory font program).read a = unlistedByte a := by
  rw [initialMemory_read_of_not_program hlen hprogram]
  refine Memory.load_read_of_not_loaded ?_ Memory.nil_wf (fontBase_add_length_le font)
  rw [Vector.length_toList]; simp only [fontBase, fontSize]; omega

end InitialMemory

/-! ### What construct answers -/

/-- Settles O36: the two lengths exclude each other, and each is one of `construct`'s two cases. -/
theorem constructRefusesOnlyLongImages : Obligations.ConstructRefusesOnlyLongImages := by
  intro cfg program
  obtain ⟨hlen, hc⟩ | ⟨hlen, hc⟩ := construct_cases cfg program
  · exact ⟨fun _ => hc, fun h => by omega⟩
  · exact ⟨fun h => by omega, fun _ => ⟨_, hc⟩⟩

theorem construct_of_length_le (cfg : Config) {program : List Byte} (hlen : program.length ≤ 3584) :
    construct cfg program = .ok (State.reset.setMem (initialMemory cfg.font program)) := if_neg (Nat.not_lt.2 hlen)

/-- Only an image that fits gives a machine (R190). -/
theorem length_le_of_construct {cfg : Config} {program : List Byte} {m : State} (h : construct cfg program = .ok m) :
    program.length ≤ 3584 := by
  obtain ⟨-, hc⟩ | ⟨hlen, -⟩ := construct_cases cfg program
  · cases hc.symm.trans h
  · exact hlen

/-- Settles O37: memory is what the two loads leave, and every other element is that of the reset state. -/
theorem constructPlacesFontAndProgram : Obligations.ConstructPlacesFontAndProgram := by
  intro cfg program m h
  have hlen := length_le_of_construct h
  obtain rfl := eq_reset_setMem_of_construct h
  refine ⟨fun k hk => ?_, fun k hk => ?_, fun a ha hfont hprogram => ?_, State.reset_readV, rfl, rfl, rfl, rfl, rfl,
    Display.blank_cell, rfl⟩
  · rw [memRead_ok (by omega), State.setMem_byte, initialMemory_read_font hlen hk]
  · rw [memRead_ok (by omega), State.setMem_byte, initialMemory_read_program hlen hk]
  · rw [memRead_ok ha, State.setMem_byte, initialMemory_read_unloaded hlen hfont hprogram,
      unlistedByte_of_not_font hfont]

/-! ### When construct leaves the reset state -/

/-- A canonical memory lists only bytes that differ from the unlisted one, so one that reads as the empty list is the
empty list. -/
theorem Memory.eq_nil_of_read_eq_unlistedByte {m : Memory} (hm : m.wf = true)
    (hread : ∀ a, m.read a = unlistedByte a) : m = [] := by
  cases m with
  | nil => rfl
  | cons cell m =>
    obtain ⟨a, b⟩ := cell
    obtain ⟨-, -, hb, -⟩ := Memory.wfFrom_cons.1 hm
    exact absurd ((if_pos rfl).symm.trans (hread a)) hb

theorem unlistedByte_font {k : Nat} (hk : k < 80) : unlistedByte (0x050 + k) = defaultFont[k] := by
  rw [unlistedByte, dif_pos (by simp only [fontBase, fontSize]; omega)]
  simp only [fontBase, Nat.add_sub_cancel_left]

/-- Without a program, the two loads leave nothing listed exactly when each font byte is the default one. -/
theorem initialMemory_nil_eq_nil_iff (font : Vector Byte fontSize) :
    initialMemory font [] = [] ↔ font = defaultFont := by
  have hlen : ([] : List Byte).length ≤ 3584 := Nat.zero_le _
  constructor
  · intro h
    refine Vector.ext fun k hk => ?_
    rw [← initialMemory_read_font hlen hk, h, ← unlistedByte_font hk]; rfl
  · rintro rfl
    refine Memory.eq_nil_of_read_eq_unlistedByte (initialMemory_wf defaultFont hlen) fun a => ?_
    by_cases hfont : 0x050 ≤ a ∧ a ≤ 0x09F
    · obtain ⟨k, rfl⟩ := Nat.exists_eq_add_of_le hfont.1
      have hk : k < 80 := by omega
      rw [initialMemory_read_font hlen hk, unlistedByte_font hk]
    · exact initialMemory_read_unloaded hlen hfont (by simp only [List.length_nil]; omega)

/-- Settles O39: the constructed machine is the reset state when the two loads leave the empty memory. -/
theorem resetIsTheEmptyMachine : Obligations.ResetIsTheEmptyMachine := by
  intro cfg
  rw [← initialMemory_nil_eq_nil_iff]
  constructor
  · intro h
    exact (congrArg State.mem (eq_reset_setMem_of_construct h)).symm
  · intro h
    rw [construct_of_length_le cfg (Nat.zero_le _), h]; rfl

end Sys2Proof.Machine
end

section
/-! PROOFS. The model's own conventions: the canonical form of a memory (notes/assumptions/2.md), the placing of a word
where the next step fetches it (notes/assumptions/4.md), and words of the test vectors. -/

namespace Sys2Proof.Machine

/-! ### Canonical memories are extensional -/

theorem Memory.read_cons_self (a : Nat) (b : Byte) (m : Memory) : Memory.read ((a, b) :: m) a = b := if_pos rfl

theorem Memory.read_cons_of_ne {a c : Nat} (h : c ≠ a) (b : Byte) (m : Memory) :
    Memory.read ((a, b) :: m) c = m.read c := if_neg h

/-- The first listed byte of a canonical memory differs from the unlisted one, so no memory whose cells all lie above
its address reads as it does there. -/
theorem Memory.not_wfFrom_succ_of_read_head {lo a : Nat} {b : Byte} {m m' : Memory}
    (hm : Memory.wfFrom lo ((a, b) :: m) = true) (hread : m'.read a = b) : ¬ m'.wfFrom (a + 1) = true := by
  intro hm'
  obtain ⟨-, -, hb, -⟩ := Memory.wfFrom_cons.1 hm
  exact hb (hread.symm.trans (Memory.read_below (Nat.lt_succ_self a) hm'))

/-- A canonical memory that reads as another one does at the other's first address has its own first cell no higher. -/
theorem Memory.head_le_of_read_head {lo a c : Nat} {b d : Byte} {m m' : Memory}
    (hm : Memory.wfFrom lo ((a, b) :: m) = true) (hm' : Memory.wfFrom lo ((c, d) :: m') = true)
    (hread : Memory.read ((c, d) :: m') a = b) : c ≤ a := by
  obtain ⟨-, hc, hd, hrest⟩ := Memory.wfFrom_cons.1 hm'
  exact Nat.le_of_not_lt fun hlt =>
    Memory.not_wfFrom_succ_of_read_head hm hread (Memory.wfFrom_cons.2 ⟨hlt, hc, hd, hrest⟩)

/-- Two canonical memories that read the same are one list: neither first cell lies above the other's, so the first
cells are equal, and past them the rests read the same. -/
theorem Memory.eq_of_wfFrom_of_read_eq {lo : Nat} {m m' : Memory} (hm : m.wfFrom lo = true) (hm' : m'.wfFrom lo = true)
    (hread : ∀ x, lo ≤ x → x ≤ 0xFFF → m.read x = m'.read x) : m = m' := by
  induction m generalizing lo m' with
  | nil =>
    cases m' with
    | nil => rfl
    | cons cell' rest' =>
      obtain ⟨c, d⟩ := cell'
      obtain ⟨hlo, hc, -, -⟩ := Memory.wfFrom_cons.1 hm'
      have hhead : Memory.read [] c = d := (hread c hlo (Nat.le_of_lt_succ hc)).trans (Memory.read_cons_self c d rest')
      exact absurd rfl (Memory.not_wfFrom_succ_of_read_head hm' hhead)
  | cons cell rest ih =>
    obtain ⟨a, b⟩ := cell
    obtain ⟨hlo, ha, -, hrest⟩ := Memory.wfFrom_cons.1 hm
    have hhead : m'.read a = b := (hread a hlo (Nat.le_of_lt_succ ha)).symm.trans (Memory.read_cons_self a b rest)
    cases m' with
    | nil => exact absurd rfl (Memory.not_wfFrom_succ_of_read_head hm hhead)
    | cons cell' rest' =>
      obtain ⟨c, d⟩ := cell'
      obtain ⟨hlo', hc, -, hrest'⟩ := Memory.wfFrom_cons.1 hm'
      have hhead' : Memory.read ((a, b) :: rest) c = d :=
        (hread c hlo' (Nat.le_of_lt_succ hc)).trans (Memory.read_cons_self c d rest')
      obtain rfl : a = c :=
        Nat.le_antisymm (Memory.head_le_of_read_head hm' hm hhead') (Memory.head_le_of_read_head hm hm' hhead)
      obtain rfl : d = b := (Memory.read_cons_self a d rest').symm.trans hhead
      have hrests : rest = rest' := ih hrest hrest' fun x hx hx' => by
        have hne : x ≠ a := Nat.ne_of_gt hx
        calc Memory.read rest x = Memory.read ((a, d) :: rest) x := (Memory.read_cons_of_ne hne d rest).symm
          _ = Memory.read ((a, d) :: rest') x := hread x (Nat.le_trans hlo (Nat.le_of_lt hx)) hx'
          _ = Memory.read rest' x := Memory.read_cons_of_ne hne d rest'
      rw [hrests]

/-- Settles O33: the extensionality of canonical memories, from address 0. -/
theorem canonicalMemoriesAreEqual : Obligations.CanonicalMemoriesAreEqual :=
  fun _ _ hm hm' hread => Memory.eq_of_wfFrom_of_read_eq hm hm' fun x _ hx => hread x hx

/-! ### Words of the test vectors -/

/-- Settles O5: six of the words are encodings, which decode to what they encode (O1); no row takes the other two. -/
theorem sampleWordsDecode : Obligations.SampleWordsDecode :=
  ⟨decodeOfEncodeIsInstruction .cls rfl, decodeOfEncodeIsInstruction (.jp 0x234) rfl,
    decodeOfEncodeIsInstruction (.ldVxNn 3 0xA5) rfl, decodeOfEncodeIsInstruction (.addVxNn 1 0x01) rfl,
    decodeOfEncodeIsInstruction (.ldINnn 0x20D) rfl, decodeOfEncodeIsInstruction (.drw 0 1 15) rfl,
    by decide, by decide⟩

/-! ### The placed word -/

/-- Both bytes at the address of the next fetch lie in memory. -/
theorem State.fetchAddr_add_one_le (s : State) : s.fetchAddr.toNat + 1 ≤ 0xFFF := by
  unfold State.fetchAddr
  split
  · next h => exact h
  · decide

theorem State.fetchAddr_eq_pc {s : State} (h : s.pc.toNat ≤ 0xFFE) : s.fetchAddr = s.pc :=
  if_pos (Nat.lt_succ_of_le h)

/-- A word's own 16 bits, as the opcode table numbers them, give its two bytes. -/
theorem tableWordBytes_toNat (w : Word) : tableWordBytes 16 w.toNat = bytesOfWord w := by
  rw [tableWordBytes, Nat.mod_eq_of_lt w.isLt, BitVec.ofNat_toNat, BitVec.setWidth_eq]

section PlacedWord
variable {s : State} (w : Word)

theorem State.withFetchWord_pc : (s.withFetchWord 16 w.toNat).pc = s.fetchAddr := rfl

theorem State.withFetchWord_mem :
    (s.withFetchWord 16 w.toNat).mem = s.mem.load s.fetchAddr.toNat (bytesOfWord w) := by
  rw [← tableWordBytes_toNat]; rfl

theorem fetchAddr_add_bytesOfWord_length_le (s : State) : s.fetchAddr.toNat + (bytesOfWord w).length ≤ memSize :=
  Nat.succ_le_succ s.fetchAddr_add_one_le

variable (hwf : s.mem.wf = true)
include hwf

theorem State.withFetchWord_mem_wf : (s.withFetchWord 16 w.toNat).mem.wf = true := by
  rw [State.withFetchWord_mem]
  exact Memory.load_wf _ hwf (fetchAddr_add_bytesOfWord_length_le w s)

/-- The placed bytes are read back where the next step fetches. -/
theorem State.withFetchWord_byte {k : Nat} (hk : k < (bytesOfWord w).length) :
    (s.withFetchWord 16 w.toNat).byte (s.fetchAddr.toNat + k) = (bytesOfWord w)[k] := by
  rw [State.byte, State.withFetchWord_mem]
  exact Memory.load_read_loaded hk hwf (fetchAddr_add_bytesOfWord_length_le w s)

theorem wordAtPc_withFetchWord : WordAtPc (s.withFetchWord 16 w.toNat) w :=
  ⟨s.fetchAddr_add_one_le, State.withFetchWord_byte w hwf Nat.zero_lt_two,
    State.withFetchWord_byte w hwf Nat.one_lt_two⟩

end PlacedWord

/-- Settles O40: the load puts the word at the fetch address, which is `PC` where a fetch can succeed. -/
theorem placedWordIsFetched : Obligations.PlacedWordIsFetched := fun _ w hwf =>
  ⟨wordAtPc_withFetchWord w hwf, State.withFetchWord_mem_wf w hwf, State.fetchAddr_eq_pc⟩

end Sys2Proof.Machine
end
